-- ==== Sys2Proof/Word.lean ====
section
/-! DEFINITION. The word types of the Kettle CORE (00_scope.md R7, R8). All values are unsigned. -/

namespace Sys2Proof

/-- 8 bits: a V register, a timer, a byte of memory (10_state.md R20, R27, R28). -/
abbrev Byte := BitVec 8

/-- 16 bits: PC, I, a return address, an instruction word (10_state.md R23, R24, R29). -/
abbrev Word := BitVec 16

/-- 4 bits: a register index, a key index, the literal `n` (30_encoding.md R91). -/
abbrev Nibble := BitVec 4

/-- 12 bits: the address field `nnn` (30_encoding.md R91). -/
abbrev Addr12 := BitVec 12

end Sys2Proof
end

