-- ==== Sys2Proof/Config.lean ====
section
/-! DEFINITION. What is fixed for the machine: the sizes and places of 00_scope.md R5, the kinds of
the open parameters of R6, and the two values the spec leaves OPEN, as constants with no body. -/

namespace Sys2Proof.Config

/-- `MEM_SIZE` (R5). -/
def memSize : Nat := 4096
/-- `ROM_BASE`, also the reset value of PC (R5). -/
def romBase : Nat := 0x200
/-- `FONT_SMALL_BASE` (R5). -/
def fontSmallBase : Nat := 0x000
/-- `FONT_LARGE_BASE` (R5). -/
def fontLargeBase : Nat := 0x050
/-- First address above both fonts, where `MEM_INIT` begins (20_memory.md R68). -/
def memInitBase : Nat := 0x0F0
/-- `ROM_MAX` = `MEM_SIZE - ROM_BASE` (R5). -/
def romMax : Nat := memSize - romBase

/-- `LEGACY_W` x `LEGACY_H` and `EXT_W` x `EXT_H` (R5). -/
def legacyW : Nat := 64
def legacyH : Nat := 32
def extW : Nat := 128
def extH : Nat := 64

/-- The values of `SHIFT_SOURCE` (41_alu.md R142). -/
inductive ShiftSource where
  | vx
  | vy
deriving DecidableEq, Repr

/-- The values of `OPERAND_RANGE_POLICY` (42_index_memory.md R174, 44_keys_timers.md R226). -/
inductive OperandRangePolicy where
  | fault
  | mask
  | multiply
deriving DecidableEq, Repr

/-- FREE VALUE (log 2): the byte that the oracle `RAND` yields at the k-th draw (41_alu.md R154, OPEN). -/
opaque rand : Nat → Byte

/-- FREE VALUE (log 3): byte `j`, 0 to 159, of `FONT_LARGE` (10_state.md R38, OPEN). -/
opaque fontLarge : Nat → Byte

end Sys2Proof.Config
end

