-- ==== Sys2Proof/Machine/Parameters.lean ====
section
/-! DEFINITION. The values of the defaulted parameters of 00_scope.md R6. Each is the spec's own
default; the operations that use them implement the alternatives too. -/

namespace Sys2Proof.Machine.Param

/-- `SHIFT_SOURCE` = Vx (41_alu.md R142, D13; log 7). -/
def shiftSource : Config.ShiftSource := .vx

/-- `OPERAND_RANGE_POLICY` = fault (42_index_memory.md R174, 44_keys_timers.md R226; log 8). -/
def operandRange : Config.OperandRangePolicy := .fault

/-- `STRICT_LOW_NIBBLE` = true (30_encoding.md R105, D12; log 9). -/
def strictLowNibble : Bool := true

/-- `STACK_LIMIT`: unset (10_state.md R29, R30, D10; log 10). -/
def stackLimit : Option Nat := none

/-- `MEM_INIT` at an address of 0x0F0 to 0xFFF: zero (10_state.md R39, D6; log 6). -/
def memInit (_ : Nat) : Byte := 0

/-- `R_INIT`: sixteen zeros (10_state.md R26, R39, D5; log 6). -/
def rInit : Vector Byte 16 := Vector.replicate 16 0

/-- `FONT_SMALL`, glyphs 0 to 7 (10_state.md R37; PRESUMED, log 4). -/
def fontSmallLow : List Byte :=
  [0xF0, 0x90, 0x90, 0x90, 0xF0] ++ [0x20, 0x60, 0x20, 0x20, 0x70] ++
  [0xF0, 0x10, 0xF0, 0x80, 0xF0] ++ [0xF0, 0x10, 0xF0, 0x10, 0xF0] ++
  [0x90, 0x90, 0xF0, 0x10, 0x10] ++ [0xF0, 0x80, 0xF0, 0x10, 0xF0] ++
  [0xF0, 0x80, 0xF0, 0x90, 0xF0] ++ [0xF0, 0x10, 0x20, 0x40, 0x40]

/-- `FONT_SMALL`, glyphs 8 to F (10_state.md R37; PRESUMED, log 4). -/
def fontSmallHigh : List Byte :=
  [0xF0, 0x90, 0xF0, 0x90, 0xF0] ++ [0xF0, 0x90, 0xF0, 0x10, 0xF0] ++
  [0xF0, 0x90, 0xF0, 0x90, 0x90] ++ [0xE0, 0x90, 0xE0, 0x90, 0xE0] ++
  [0xF0, 0x80, 0x80, 0x80, 0xF0] ++ [0xE0, 0x90, 0x90, 0x90, 0xE0] ++
  [0xF0, 0x80, 0xF0, 0x80, 0xF0] ++ [0xF0, 0x80, 0xF0, 0x80, 0x80]

/-- `FONT_SMALL`: 16 glyphs of 5 bytes (10_state.md R36, R37). -/
def fontSmall : List Byte := fontSmallLow ++ fontSmallHigh

end Sys2Proof.Machine.Param
end

