-- ==== Sys2Proof/Syntax.lean ====
section
/-! DEFINITION. The instruction type: one constructor per row of 30_encoding.md R100, in the table's
order. The fields are those of R91, unsigned (R93). -/

namespace Sys2Proof

inductive Instr where
  /-- `00E0` CLS (43_display.md R190). -/
  | cls
  /-- `00Cn` SCD n (43_display.md R191). -/
  | scd (n : Nibble)
  /-- `00EE` RET (40_control_flow.md R121). -/
  | ret
  /-- `00FB` SCR (43_display.md R192). -/
  | scr
  /-- `00FC` SCL (43_display.md R193). -/
  | scl
  /-- `00FE` LOW (43_display.md R194). -/
  | low
  /-- `00FF` HIGH (43_display.md R195). -/
  | high
  /-- `0nnn` SYS nnn, every other word of family 0 (40_control_flow.md R120, 30_encoding.md R101). -/
  | sys (nnn : Addr12)
  /-- `1nnn` JP nnn (40_control_flow.md R122). -/
  | jp (nnn : Addr12)
  /-- `2nnn` CALL nnn (40_control_flow.md R123). -/
  | call (nnn : Addr12)
  /-- `3xkk` SE Vx, kk (40_control_flow.md R124). -/
  | seImm (x : Nibble) (kk : Byte)
  /-- `4xkk` SNE Vx, kk (40_control_flow.md R125). -/
  | sneImm (x : Nibble) (kk : Byte)
  /-- `5xy0` SE Vx, Vy (40_control_flow.md R126). -/
  | seReg (x y : Nibble)
  /-- `6xkk` LD Vx, kk (41_alu.md R143). -/
  | ldImm (x : Nibble) (kk : Byte)
  /-- `7xkk` ADD Vx, kk (41_alu.md R144). -/
  | addImm (x : Nibble) (kk : Byte)
  /-- `8xy0` LD Vx, Vy (41_alu.md R145). -/
  | ldReg (x y : Nibble)
  /-- `8xy1` OR Vx, Vy (41_alu.md R146). -/
  | orReg (x y : Nibble)
  /-- `8xy2` AND Vx, Vy (41_alu.md R147). -/
  | andReg (x y : Nibble)
  /-- `8xy3` XOR Vx, Vy (41_alu.md R148). -/
  | xorReg (x y : Nibble)
  /-- `8xy4` ADD Vx, Vy (41_alu.md R149). -/
  | addReg (x y : Nibble)
  /-- `8xy5` SUB Vx, Vy (41_alu.md R150). -/
  | subReg (x y : Nibble)
  /-- `8xy6` SHR Vx; the field `y` matters only with SHIFT_SOURCE = Vy (41_alu.md R151). -/
  | shr (x y : Nibble)
  /-- `8xy7` SUBN Vx, Vy (41_alu.md R152). -/
  | subnReg (x y : Nibble)
  /-- `8xyE` SHL Vx; the field `y` matters only with SHIFT_SOURCE = Vy (41_alu.md R153). -/
  | shl (x y : Nibble)
  /-- `9xy0` SNE Vx, Vy (40_control_flow.md R127). -/
  | sneReg (x y : Nibble)
  /-- `Annn` LD I, nnn (42_index_memory.md R170). -/
  | ldI (nnn : Addr12)
  /-- `Bnnn` JP V0, nnn (40_control_flow.md R128). -/
  | jpV0 (nnn : Addr12)
  /-- `Cxkk` RND Vx, kk (41_alu.md R154). -/
  | rnd (x : Nibble) (kk : Byte)
  /-- `Dxyn` DRW Vx, Vy, n (43_display.md R200). -/
  | drw (x y n : Nibble)
  /-- `Ex9E` SKP Vx (44_keys_timers.md R220). -/
  | skp (x : Nibble)
  /-- `ExA1` SKNP Vx (44_keys_timers.md R221). -/
  | sknp (x : Nibble)
  /-- `Fx07` LD Vx, DT (44_keys_timers.md R223). -/
  | ldVxDt (x : Nibble)
  /-- `Fx0A` LD Vx, K (44_keys_timers.md R222). -/
  | ldVxK (x : Nibble)
  /-- `Fx15` LD DT, Vx (44_keys_timers.md R224). -/
  | ldDtVx (x : Nibble)
  /-- `Fx18` LD ST, Vx (44_keys_timers.md R225). -/
  | ldStVx (x : Nibble)
  /-- `Fx1E` ADD I, Vx (42_index_memory.md R171). -/
  | addI (x : Nibble)
  /-- `Fx29` LD F, Vx (42_index_memory.md R172). -/
  | ldF (x : Nibble)
  /-- `Fx30` LD HF, Vx (42_index_memory.md R173). -/
  | ldHf (x : Nibble)
  /-- `Fx33` LD B, Vx (42_index_memory.md R175). -/
  | ldB (x : Nibble)
  /-- `Fx55` LD [I], Vx: store V0..Vx (42_index_memory.md R176). -/
  | storeV (x : Nibble)
  /-- `Fx65` LD Vx, [I]: load V0..Vx (42_index_memory.md R177). -/
  | loadV (x : Nibble)
  /-- `Fx75` LD R, Vx: all sixteen, `x` ignored (42_index_memory.md R178). -/
  | saveR (x : Nibble)
  /-- `Fx85` LD Vx, R: all sixteen, `x` ignored (42_index_memory.md R179). -/
  | restoreR (x : Nibble)
deriving DecidableEq, Repr

end Sys2Proof
end

