-- ==== Sys2Proof/WellFormed.lean ====
section
/-! DEFINITION. Which terms of `Instr` are instructions. The field types leave one check: a `SYS nnn`
whose `nnn` selects another row of family 0 is no `SYS` (30_encoding.md R101). -/

namespace Sys2Proof

/-- The values of `nnn` that family 0 recognises: 0x0E0, 0x0EE, 0x0FB, 0x0FC, 0x0FE, 0x0FF and
0x0C0 to 0x0CF, a match on all twelve bits (30_encoding.md R101). -/
def recognisedFamily0 (nnn : Addr12) : Bool :=
  nnn == 0x0E0 || nnn == 0x0EE || nnn == 0x0FB || nnn == 0x0FC || nnn == 0x0FE || nnn == 0x0FF ||
    nnn.extractLsb' 4 8 == 0x0C

/-- Well-formedness of an instruction; every operand value of every other row is legal
(30_encoding.md R93, R106). -/
def Instr.wf : Instr → Bool
  | .sys nnn => !recognisedFamily0 nnn
  | .cls | .scd _ | .ret | .scr | .scl | .low | .high => true
  | .jp _ | .call _ | .jpV0 _ | .ldI _ => true
  | .seImm _ _ | .sneImm _ _ | .ldImm _ _ | .addImm _ _ | .rnd _ _ => true
  | .seReg _ _ | .sneReg _ _ | .ldReg _ _ | .orReg _ _ | .andReg _ _ | .xorReg _ _ => true
  | .addReg _ _ | .subReg _ _ | .shr _ _ | .subnReg _ _ | .shl _ _ => true
  | .drw _ _ _ | .skp _ | .sknp _ => true
  | .ldVxDt _ | .ldVxK _ | .ldDtVx _ | .ldStVx _ | .addI _ | .ldF _ | .ldHf _ => true
  | .ldB _ | .storeV _ | .loadV _ | .saveR _ | .restoreR _ => true

end Sys2Proof
end

