-- ==== Sys2Proof/Decode.lean ====
section
/-! DEFINITION. Decode, a total function of the instruction word alone (30_encoding.md R94), the
encoder beside it, and the opcode table of R100 as one mask and match per instruction. -/

namespace Sys2Proof

/-- Why a word, or a run of bytes, is no instruction. -/
inductive DecodeError where
  /-- `5xyN` or `9xyN` with N other than 0 (30_encoding.md R105). -/
  | lowNibbleNotZero
  /-- `8xyn` with an unlisted `n` (30_encoding.md R102). -/
  | unknownFamily8
  /-- `Exkk` with an unlisted `kk` (30_encoding.md R103). -/
  | unknownFamilyE
  /-- `Fxkk` with an unlisted `kk` (30_encoding.md R104). -/
  | unknownFamilyF
  /-- Fewer than the 2 bytes of an instruction (30_encoding.md R90). -/
  | truncated
deriving DecidableEq, Repr

/-- The fields of the word `ins` (30_encoding.md R91). -/
def fieldFam (ins : Word) : Nibble := ins.extractLsb' 12 4
def fieldX (ins : Word) : Nibble := ins.extractLsb' 8 4
def fieldY (ins : Word) : Nibble := ins.extractLsb' 4 4
def fieldN (ins : Word) : Nibble := ins.extractLsb' 0 4
def fieldKk (ins : Word) : Byte := ins.extractLsb' 0 8
def fieldNnn (ins : Word) : Addr12 := ins.extractLsb' 0 12

/-- Family 0: never an error (30_encoding.md R94, R101). -/
def decodeFamily0 (nnn : Addr12) : Instr :=
  if nnn = 0x0E0 then .cls
  else if nnn = 0x0EE then .ret
  else if nnn = 0x0FB then .scr
  else if nnn = 0x0FC then .scl
  else if nnn = 0x0FE then .low
  else if nnn = 0x0FF then .high
  else if nnn.extractLsb' 4 8 = 0x0C then .scd (nnn.extractLsb' 0 4)
  else .sys nnn

/-- The low nibble of `5xyN` and `9xyN` under `STRICT_LOW_NIBBLE` (30_encoding.md R105). -/
def decodeLowNibble (strict : Bool) (n : Nibble) (i : Instr) : Except DecodeError Instr :=
  if strict && n != 0 then .error .lowNibbleNotZero else .ok i

/-- Family 8 (30_encoding.md R94, R102). -/
def decodeFamily8 (x y n : Nibble) : Except DecodeError Instr :=
  match n.toNat with
  | 0x0 => .ok (.ldReg x y)
  | 0x1 => .ok (.orReg x y)
  | 0x2 => .ok (.andReg x y)
  | 0x3 => .ok (.xorReg x y)
  | 0x4 => .ok (.addReg x y)
  | 0x5 => .ok (.subReg x y)
  | 0x6 => .ok (.shr x y)
  | 0x7 => .ok (.subnReg x y)
  | 0xE => .ok (.shl x y)
  | _ => .error .unknownFamily8

/-- Family E (30_encoding.md R94, R103). -/
def decodeFamilyE (x : Nibble) (kk : Byte) : Except DecodeError Instr :=
  match kk.toNat with
  | 0x9E => .ok (.skp x)
  | 0xA1 => .ok (.sknp x)
  | _ => .error .unknownFamilyE

/-- Family F (30_encoding.md R94, R104). -/
def decodeFamilyF (x : Nibble) (kk : Byte) : Except DecodeError Instr :=
  match kk.toNat with
  | 0x07 => .ok (.ldVxDt x)
  | 0x0A => .ok (.ldVxK x)
  | 0x15 => .ok (.ldDtVx x)
  | 0x18 => .ok (.ldStVx x)
  | 0x1E => .ok (.addI x)
  | 0x29 => .ok (.ldF x)
  | 0x30 => .ok (.ldHf x)
  | 0x33 => .ok (.ldB x)
  | 0x55 => .ok (.storeV x)
  | 0x65 => .ok (.loadV x)
  | 0x75 => .ok (.saveR x)
  | 0x85 => .ok (.restoreR x)
  | _ => .error .unknownFamilyF

/-- Decode one instruction word (30_encoding.md R94). -/
def decodeWord (ins : Word) : Except DecodeError Instr :=
  match (fieldFam ins).toNat with
  | 0x0 => .ok (decodeFamily0 (fieldNnn ins))
  | 0x1 => .ok (.jp (fieldNnn ins))
  | 0x2 => .ok (.call (fieldNnn ins))
  | 0x3 => .ok (.seImm (fieldX ins) (fieldKk ins))
  | 0x4 => .ok (.sneImm (fieldX ins) (fieldKk ins))
  | 0x5 => decodeLowNibble Machine.Param.strictLowNibble (fieldN ins) (.seReg (fieldX ins) (fieldY ins))
  | 0x6 => .ok (.ldImm (fieldX ins) (fieldKk ins))
  | 0x7 => .ok (.addImm (fieldX ins) (fieldKk ins))
  | 0x8 => decodeFamily8 (fieldX ins) (fieldY ins) (fieldN ins)
  | 0x9 => decodeLowNibble Machine.Param.strictLowNibble (fieldN ins) (.sneReg (fieldX ins) (fieldY ins))
  | 0xA => .ok (.ldI (fieldNnn ins))
  | 0xB => .ok (.jpV0 (fieldNnn ins))
  | 0xC => .ok (.rnd (fieldX ins) (fieldKk ins))
  | 0xD => .ok (.drw (fieldX ins) (fieldY ins) (fieldN ins))
  | 0xE => decodeFamilyE (fieldX ins) (fieldKk ins)
  | _ => decodeFamilyF (fieldX ins) (fieldKk ins)

/-- The word of two bytes in memory order: the byte at the lower address is the high byte
(20_memory.md R66). -/
def wordOfBytes (hi lo : Byte) : Word := hi ++ lo

/-- The two bytes of a word in memory order (20_memory.md R66). -/
def bytesOfWord (w : Word) : List Byte := [w.extractLsb' 8 8, w.extractLsb' 0 8]

/-- Decode the first instruction of a run of bytes, and give the rest (30_encoding.md R90). -/
def decodeBytes : List Byte → Except DecodeError (Instr × List Byte)
  | hi :: lo :: rest =>
    match decodeWord (wordOfBytes hi lo) with
    | .ok i => .ok (i, rest)
    | .error e => .error e
  | _ => .error .truncated

/-- The formats of 30_encoding.md R92 with operand fields: NNN; XKK and X, whose low byte is fixed; XY,
XYN and N, whose nibbles are fixed or operands. -/
def wordNNN (f : Nibble) (nnn : Addr12) : Word := f ++ nnn
def wordXKK (f x : Nibble) (kk : Byte) : Word := f ++ x ++ kk
def wordXYN (f x y n : Nibble) : Word := f ++ x ++ y ++ n

/-- The word of an instruction, from the patterns of 30_encoding.md R100. -/
def encode : Instr → Word
  | .cls => 0x00E0
  | .scd n => wordXYN 0x0 0x0 0xC n
  | .ret => 0x00EE
  | .scr => 0x00FB
  | .scl => 0x00FC
  | .low => 0x00FE
  | .high => 0x00FF
  | .sys nnn => wordNNN 0x0 nnn
  | .jp nnn => wordNNN 0x1 nnn
  | .call nnn => wordNNN 0x2 nnn
  | .seImm x kk => wordXKK 0x3 x kk
  | .sneImm x kk => wordXKK 0x4 x kk
  | .seReg x y => wordXYN 0x5 x y 0x0
  | .ldImm x kk => wordXKK 0x6 x kk
  | .addImm x kk => wordXKK 0x7 x kk
  | .ldReg x y => wordXYN 0x8 x y 0x0
  | .orReg x y => wordXYN 0x8 x y 0x1
  | .andReg x y => wordXYN 0x8 x y 0x2
  | .xorReg x y => wordXYN 0x8 x y 0x3
  | .addReg x y => wordXYN 0x8 x y 0x4
  | .subReg x y => wordXYN 0x8 x y 0x5
  | .shr x y => wordXYN 0x8 x y 0x6
  | .subnReg x y => wordXYN 0x8 x y 0x7
  | .shl x y => wordXYN 0x8 x y 0xE
  | .sneReg x y => wordXYN 0x9 x y 0x0
  | .ldI nnn => wordNNN 0xA nnn
  | .jpV0 nnn => wordNNN 0xB nnn
  | .rnd x kk => wordXKK 0xC x kk
  | .drw x y n => wordXYN 0xD x y n
  | .skp x => wordXKK 0xE x 0x9E
  | .sknp x => wordXKK 0xE x 0xA1
  | .ldVxDt x => wordXKK 0xF x 0x07
  | .ldVxK x => wordXKK 0xF x 0x0A
  | .ldDtVx x => wordXKK 0xF x 0x15
  | .ldStVx x => wordXKK 0xF x 0x18
  | .addI x => wordXKK 0xF x 0x1E
  | .ldF x => wordXKK 0xF x 0x29
  | .ldHf x => wordXKK 0xF x 0x30
  | .ldB x => wordXKK 0xF x 0x33
  | .storeV x => wordXKK 0xF x 0x55
  | .loadV x => wordXKK 0xF x 0x65
  | .saveR x => wordXKK 0xF x 0x75
  | .restoreR x => wordXKK 0xF x 0x85

/-- The bytes of an instruction in memory order. -/
def encodeBytes (i : Instr) : List Byte := bytesOfWord (encode i)

/-- `(mask, match)` of an instruction's row: the columns of 30_encoding.md R100. -/
def Instr.row : Instr → Word × Word
  | .cls => (0xFFFF, 0x00E0)
  | .scd _ => (0xFFF0, 0x00C0)
  | .ret => (0xFFFF, 0x00EE)
  | .scr => (0xFFFF, 0x00FB)
  | .scl => (0xFFFF, 0x00FC)
  | .low => (0xFFFF, 0x00FE)
  | .high => (0xFFFF, 0x00FF)
  | .sys _ => (0xF000, 0x0000)
  | .jp _ => (0xF000, 0x1000)
  | .call _ => (0xF000, 0x2000)
  | .seImm _ _ => (0xF000, 0x3000)
  | .sneImm _ _ => (0xF000, 0x4000)
  | .seReg _ _ => (0xF00F, 0x5000)
  | .ldImm _ _ => (0xF000, 0x6000)
  | .addImm _ _ => (0xF000, 0x7000)
  | .ldReg _ _ => (0xF00F, 0x8000)
  | .orReg _ _ => (0xF00F, 0x8001)
  | .andReg _ _ => (0xF00F, 0x8002)
  | .xorReg _ _ => (0xF00F, 0x8003)
  | .addReg _ _ => (0xF00F, 0x8004)
  | .subReg _ _ => (0xF00F, 0x8005)
  | .shr _ _ => (0xF00F, 0x8006)
  | .subnReg _ _ => (0xF00F, 0x8007)
  | .shl _ _ => (0xF00F, 0x800E)
  | .sneReg _ _ => (0xF00F, 0x9000)
  | .ldI _ => (0xF000, 0xA000)
  | .jpV0 _ => (0xF000, 0xB000)
  | .rnd _ _ => (0xF000, 0xC000)
  | .drw _ _ _ => (0xF000, 0xD000)
  | .skp _ => (0xF0FF, 0xE09E)
  | .sknp _ => (0xF0FF, 0xE0A1)
  | .ldVxDt _ => (0xF0FF, 0xF007)
  | .ldVxK _ => (0xF0FF, 0xF00A)
  | .ldDtVx _ => (0xF0FF, 0xF015)
  | .ldStVx _ => (0xF0FF, 0xF018)
  | .addI _ => (0xF0FF, 0xF01E)
  | .ldF _ => (0xF0FF, 0xF029)
  | .ldHf _ => (0xF0FF, 0xF030)
  | .ldB _ => (0xF0FF, 0xF033)
  | .storeV _ => (0xF0FF, 0xF055)
  | .loadV _ => (0xF0FF, 0xF065)
  | .saveR _ => (0xF0FF, 0xF075)
  | .restoreR _ => (0xF0FF, 0xF085)

/-- The instruction that decode reads from the table's number `w` of `nbits` bits: one 16-bit word,
its bit 0 the least significant (00_scope.md R8), laid out high byte first (20_memory.md R66). -/
def decodeTableWord (nbits w : Nat) : Option Instr :=
  match decodeBytes (bytesOfWord (BitVec.ofNat 16 (w % 2 ^ nbits))) with
  | .ok (i, _) => some i
  | .error _ => none

end Sys2Proof
end

