-- ==== Sys2Proof/Machine/State.lean ====
section
/-! DEFINITION. The state of the machine: the tuple at the head of 10_state.md, field by field, and
the model's own counter of drawn random bytes. Plain data. -/

namespace Sys2Proof.Machine

/-- The fault kinds with their recorded values (60_exceptions.md R260). The latch `State.fault` holds
one, and `step` answers `Outcome.fault` with it when it finds it set (45_host_operations.md R243),
and at no other time. -/
inductive Fault where
  /-- Code 1. Raised by decode on an unrecognised word, recorded (R261). Safe: the machine halts. -/
  | decodeError (ins : Word)
  /-- Code 2. Raised by RET on an empty stack (R262). Safe: the machine halts. -/
  | stackUnderflow
  /-- Code 3. Raised by the fetch and by `Dxyn`, `Fx33`, `Fx55`, `Fx65` (R263); records an address,
  an unbounded number (20_memory.md R60). Safe: the machine halts. -/
  | outOfBounds (addr : Nat)
  /-- Code 4. Raised by `Fx29`, `Fx30`, `Ex9E`, `ExA1` on a byte above 0xF, recorded (R264). Safe:
  the machine halts. -/
  | operandRange (v : Byte)
  /-- Code 5. Raised by CALL when STACK_LIMIT is set and reached, never with the default (R262).
  Safe: the machine halts. -/
  | stackOverflow
deriving DecidableEq, Repr

/-- The numeric codes of 60_exceptions.md R260. -/
def Fault.code : Fault → Nat
  | .decodeError _ => 1
  | .stackUnderflow => 2
  | .outOfBounds _ => 3
  | .operandRange _ => 4
  | .stackOverflow => 5

/-- What the model gives no transition. `exec` and `step` never refuse; the last four belong to
`Session.apply`, the environment's side. -/
inductive Refusal where
  /-- An instruction without a meaning, by its mnemonic. Raised by no arm of `exec`. Safe. -/
  | notModelled (mnemonic : String)
  /-- PRESS or RELEASE of a key index above 15 (45_host_operations.md R250). Unsafe, see log 15. -/
  | keyIndexOutOfRange (k : Nat)
  /-- LOAD after the first STEP (45_host_operations.md R241, R251). Unsafe, see log 15. -/
  | loadAfterFirstStep
  /-- A second LOAD after a successful one (92_eei_decisions.md D37). Unsafe, see log 15. -/
  | secondLoad
  /-- STEP after a RomLoadError (45_host_operations.md R241, R251). Unsafe, see log 15. -/
  | stepAfterLoadError
deriving DecidableEq, Repr

/-- The display mode `(W, H)`: (64, 32) or (128, 64) (10_state.md R32). -/
inductive DisplayMode where
  | legacy
  | extended
deriving DecidableEq, Repr

/-- The display cells, as rows from the top, each row from the left (10_state.md R31). -/
abbrev Display := List (List Bool)

/-- Memory, as the bytes that differ from the reset contents, addresses rising (10_state.md R28). -/
abbrev Memory := List Host.Cell

structure State where
  /-- V0..VF (10_state.md R20); VF is the flag (R22). -/
  v : Vector Byte 16
  /-- The address register I (10_state.md R23). -/
  i : Word
  /-- The program counter (10_state.md R24). -/
  pc : Word
  /-- The persisted-register shadow file R[0..15] (10_state.md R26). -/
  r : Vector Byte 16
  /-- The call stack, newest last (10_state.md R29). -/
  stack : List Word
  /-- The delay timer DT (10_state.md R27). -/
  dt : Byte
  /-- The sound timer ST (10_state.md R27). -/
  st : Byte
  /-- The 4096-byte memory (10_state.md R28). -/
  mem : Memory
  /-- The display mode (10_state.md R32). -/
  mode : DisplayMode
  /-- The display buffer (10_state.md R31). -/
  disp : Display
  /-- key[0..15], true when down (10_state.md R34). -/
  key : Vector Bool 16
  /-- How many keys are down (10_state.md R34). -/
  keyCount : Nat
  /-- The last key pressed (10_state.md R34). -/
  lastKey : Nibble
  /-- The fault latch (10_state.md R35). -/
  fault : Option Fault
  /-- The model's own: bytes drawn from RAND so far (log 2). -/
  draws : Nat
deriving DecidableEq, Repr

/-- What an instruction, or a step, answers. -/
abbrev Result := Host.Outcome State Fault Refusal

/-- The state after RESET with the default parameters (10_state.md R39; logs 2, 5, 6). Memory lists
nothing: every address reads as its reset contents. -/
def State.reset : State where
  v := Vector.replicate 16 0
  i := 0
  pc := 0x200
  r := Param.rInit
  stack := []
  dt := 0
  st := 0
  mem := []
  mode := .legacy
  disp := List.replicate Config.legacyH (List.replicate Config.legacyW false)
  key := Vector.replicate 16 false
  keyCount := 0
  lastKey := 0
  fault := none
  draws := 0

end Sys2Proof.Machine
end

