-- ==== Sys2Proof/Machine/Flags.lean ====
section
/-! DEFINITION. Every value that an instruction writes to VF as a flag (10_state.md R22), but the
collision of `Dxyn`, which is in Machine/Sprite.lean. -/

namespace Sys2Proof.Machine

/-- ADD: 1 iff `a + b > 255` (41_alu.md R140, R149). -/
def carryOf (a b : Byte) : Bool := a.toNat + b.toNat > 255

/-- SUB and SUBN: 1 iff there is no borrow, `a >= b` (41_alu.md R140, R150, R152). -/
def noBorrowOf (a b : Byte) : Bool := a.toNat ≥ b.toNat

/-- SHR: bit 0 before the shift (41_alu.md R151). -/
def lowBitOf (a : Byte) : Bool := a.getLsbD 0

/-- SHL: bit 7 before the shift (41_alu.md R153). -/
def highBitOf (a : Byte) : Bool := a.getLsbD 7

/-- `Fx1E`: 1 iff the unreduced sum exceeds 0xFFF (42_index_memory.md R171). -/
def beyondMemory (i : Word) (b : Byte) : Bool := i.toNat + b.toNat > 0xFFF

end Sys2Proof.Machine
end

