-- ==== Sys2Proof/Machine/Ops.lean ====
section
/-! DEFINITION. The shared operations over memory, registers, stack, display and the fault latch. -/

namespace Sys2Proof.Machine

/-! ### Display cells -/

/-- The display width W (10_state.md R32). -/
def DisplayMode.width : DisplayMode → Nat
  | .legacy => Config.legacyW
  | .extended => Config.extW

/-- The display height H (10_state.md R32). -/
def DisplayMode.height : DisplayMode → Nat
  | .legacy => Config.legacyH
  | .extended => Config.extH

/-- The cell `disp[x, y]`: column x from the left, row y from the top (10_state.md R31). -/
def Display.get (d : Display) (x y : Nat) : Bool := (d.getD y []).getD x false

/-- The buffer of mode `m` whose cell in column x, row y is `f x y`: "for all x, y: disp[x, y] <-". -/
def Display.ofFn (m : DisplayMode) (f : Nat → Nat → Bool) : Display :=
  (List.range m.height).map fun y => (List.range m.width).map fun x => f x y

/-- The all-unlit buffer of mode `m` (43_display.md R190, R194, R195). -/
def Display.clear (m : DisplayMode) : Display := Display.ofFn m fun _ _ => false

/-! ### Memory -/

/-- What an address reads as after RESET, before anything is written there (20_memory.md R68). -/
def Memory.unlisted (a : Nat) : Byte :=
  if a < Config.fontLargeBase then Param.fontSmall.getD (a - Config.fontSmallBase) 0
  else if a < Config.memInitBase then Config.fontLarge (a - Config.fontLargeBase)
  else Param.memInit a

/-- The canonical form: addresses of the address space, strictly rising, each with a byte that differs
from what the unlisted address reads as. -/
abbrev Memory.wf (m : Memory) : Prop :=
  (m.map Prod.fst).Pairwise (· < ·) ∧
    ∀ c ∈ m, c.1 < Config.memSize ∧ c.2 ≠ Memory.unlisted c.1

/-- The byte `mem[a]` (20_memory.md R60, R70). -/
def Memory.read : Memory → Nat → Byte
  | [], a => Memory.unlisted a
  | (b, v) :: m, a => if b = a then v else Memory.read m a

/-- Put `v` at `a` in a rising list, keeping the canonical form. -/
def Memory.put : Memory → Nat → Byte → Memory
  | [], a, v => if v = Memory.unlisted a then [] else [(a, v)]
  | (b, u) :: m, a, v =>
    if b < a then (b, u) :: Memory.put m a v
    else if v = Memory.unlisted a then (if b = a then m else (b, u) :: m)
    else if b = a then (a, v) :: m
    else (a, v) :: (b, u) :: m

/-- `mem[a] <- v`, one byte and nothing else (20_memory.md R63). An address above 0xFFF has no byte;
every instruction is stopped by its range check before it would come here with one (R69). -/
def Memory.write (m : Memory) (a : Nat) (v : Byte) : Memory :=
  if a < Config.memSize then Memory.put m a v else m

/-- Write a run of bytes upward from `a`, in ascending order. -/
def Memory.writeBytes (m : Memory) : Nat → List Byte → Memory
  | _, [] => m
  | a, b :: bs => Memory.writeBytes (m.write a b) (a + 1) bs

/-- Read the `len` bytes upward from `a`. -/
def Memory.readBytes (m : Memory) (a len : Nat) : List Byte :=
  (List.range len).map fun k => m.read (a + k)

/-! ### Faults: the one way an exception is taken -/

/-- `raise F(info)`: the latch is set, nothing else changes, and the instruction ends
(60_exceptions.md R266; log 1). There is no handler and no return (R268). -/
def raise (f : Fault) (s : State) : Result := .next { s with fault := some f }

/-- Go on with the value of a checked operation, or raise its fault. -/
def orRaise {α : Type} (e : Except Fault α) (s : State) (k : α → Result) : Result :=
  match e with
  | .ok a => k a
  | .error f => raise f s

/-! ### Checked memory access -/

/-- `MemRead(a, 1)` (20_memory.md R60, R62). -/
def State.memRead (s : State) (a : Nat) : Except Fault Byte :=
  if a < Config.memSize then .ok (s.mem.read a) else .error (.outOfBounds a)

/-- The footprint check of an access of `len` bytes at `a`: the recorded address is `a + len - 1`
(20_memory.md R69). -/
def footprint (a len : Nat) : Except Fault Unit :=
  if a + len - 1 < Config.memSize then .ok () else .error (.outOfBounds (a + len - 1))

/-- Read a whole footprint, or nothing (20_memory.md R69). -/
def State.load (s : State) (a len : Nat) : Except Fault (List Byte) :=
  match footprint a len with
  | .ok _ => .ok (s.mem.readBytes a len)
  | .error f => .error f

/-- Write a whole footprint, or nothing (20_memory.md R63, R69). -/
def State.store (s : State) (a : Nat) (bytes : List Byte) : Except Fault State :=
  match footprint a bytes.length with
  | .ok _ => .ok { s with mem := s.mem.writeBytes a bytes }
  | .error f => .error f

/-- The instruction fetch at PC, big-endian: OutOfBounds(PC) when PC is above 0xFFF and
OutOfBounds(PC + 1) when PC is 0xFFF (20_memory.md R65, R66). -/
def State.fetch (s : State) : Except Fault Word :=
  match s.memRead s.pc.toNat with
  | .error f => .error f
  | .ok hi =>
    match s.memRead (s.pc.toNat + 1) with
    | .error f => .error f
    | .ok lo => .ok (wordOfBytes hi lo)

/-- `PC <- PC + 2`, modulo 2^16: the advance at fetch and the skip (10_state.md R24, R25). -/
def State.advance (s : State) : State := { s with pc := s.pc + 2 }

/-! ### Registers -/

/-- `V[x]` (10_state.md R20). -/
def State.getV (s : State) (x : Nibble) : Byte := s.v[x.toNat]'x.isLt

/-- `V[x] <- b` (10_state.md R20). -/
def State.setV (s : State) (x : Nibble) (b : Byte) : State :=
  { s with v := s.v.set x.toNat b x.isLt }

/-- `V[15] <- (1 if c else 0)`: the flag write (10_state.md R22). -/
def State.setFlag (s : State) (c : Bool) : State := s.setV 0xF (if c then 1 else 0)

/-- `V[0], .., V[x]` as a run of bytes (42_index_memory.md R176). -/
def State.firstVs (s : State) (x : Nibble) : List Byte := s.v.toList.take (x.toNat + 1)

/-- `V[i] <- bytes[i]` for i in 0..x; the registers above x stay (42_index_memory.md R177). -/
def State.setFirstVs (s : State) (x : Nibble) (bytes : List Byte) : State :=
  { s with v := Vector.ofFn fun k : Fin 16 => if k.val ≤ x.toNat then bytes.getD k.val 0 else s.v[k.val] }

/-- A fresh byte of the oracle RAND, and the state that has drawn it (41_alu.md R154; log 2). -/
def drawByte (s : State) : Byte × State := (Config.rand s.draws, { s with draws := s.draws + 1 })

/-! ### The call stack -/

/-- `push(v)`: StackOverflow when a limit is set and the depth equals it (10_state.md R30). -/
def push (limit : Option Nat) (v : Word) (s : State) : Except Fault State :=
  if limit = some s.stack.length then .error .stackOverflow
  else .ok { s with stack := s.stack ++ [v] }

/-- `pop()`: StackUnderflow when the stack is empty (10_state.md R30). -/
def pop (s : State) : Except Fault (Word × State) :=
  match s.stack.getLast? with
  | none => .error .stackUnderflow
  | some t => .ok (t, { s with stack := s.stack.dropLast })

end Sys2Proof.Machine
end

