-- ==== Sys2Proof/Machine/Operands.lean ====
section
/-! DEFINITION. The operand forms: immediates, the shifted register, digits, key indices, skips. -/

namespace Sys2Proof.Machine

/-- `zext_16(nnn)` (30_encoding.md R93). -/
def zext12 (nnn : Addr12) : Word := nnn.setWidth 16

/-- `zext_16(b)` of a byte (40_control_flow.md R128). -/
def zext8 (b : Byte) : Word := b.setWidth 16

/-- The operand of `8xy6` and `8xyE` (41_alu.md R142). -/
def shiftOperand (src : Config.ShiftSource) (x y : Nibble) (s : State) : Byte :=
  match src with
  | .vx => s.getV x
  | .vy => s.getV y

/-- A byte as a digit of a font table (42_index_memory.md R174). -/
def digitOf (p : Config.OperandRangePolicy) (b : Byte) : Except Fault Nat :=
  match p with
  | .fault => if b.toNat ≤ 0xF then .ok b.toNat else .error (.operandRange b)
  | .mask => .ok (b.toNat % 16)
  | .multiply => .ok b.toNat

/-- A byte as a key index (44_keys_timers.md R226). Under `multiply`, which the spec gives only for
glyphs, it is checked as under `fault` (log 8). -/
def keyOf (p : Config.OperandRangePolicy) (b : Byte) : Except Fault Nibble :=
  match p with
  | .mask => .ok (b.setWidth 4)
  | .fault | .multiply => if b.toNat ≤ 0xF then .ok (b.setWidth 4) else .error (.operandRange b)

/-- `key[k]` (10_state.md R34). -/
def State.keyDown (s : State) (k : Nibble) : Bool := s.key[k.toNat]'k.isLt

/-- A skip: `if c then pc <- PC + 2`; the skipped word is not looked at (40_control_flow.md R130). -/
def State.skipIf (s : State) (c : Bool) : State := if c then s.advance else s

/-- The three digits of a byte, hundreds first (42_index_memory.md R175). -/
def bcdDigits (b : Byte) : List Byte :=
  [BitVec.ofNat 8 (b.toNat / 100), BitVec.ofNat 8 (b.toNat / 10 % 10), BitVec.ofNat 8 (b.toNat % 10)]

end Sys2Proof.Machine
end

