-- ==== Sys2Proof/Machine/Alu.lean ====
section
/-! DEFINITION. The meanings of the register load and arithmetic instructions (41_alu.md). Sources are
read first, the result is written to Vx, the flag is written last (R141; log 12). -/

namespace Sys2Proof.Machine

/-- `6xkk`: `V[x] <- kk` (R143). -/
def execLdImm (x : Nibble) (kk : Byte) (s : State) : Result := .next (s.setV x kk)

/-- `7xkk`: `V[x] <- (V[x] + kk) mod 256`, no flag (R144). -/
def execAddImm (x : Nibble) (kk : Byte) (s : State) : Result := .next (s.setV x (s.getV x + kk))

/-- `8xy0`: `V[x] <- V[y]` (R145). -/
def execLdReg (x y : Nibble) (s : State) : Result := .next (s.setV x (s.getV y))

/-- `8xy1`: `V[x] <- V[x] | V[y]` (R146). -/
def execOrReg (x y : Nibble) (s : State) : Result := .next (s.setV x (s.getV x ||| s.getV y))

/-- `8xy2`: `V[x] <- V[x] & V[y]` (R147). -/
def execAndReg (x y : Nibble) (s : State) : Result := .next (s.setV x (s.getV x &&& s.getV y))

/-- `8xy3`: `V[x] <- V[x] ^ V[y]` (R148). -/
def execXorReg (x y : Nibble) (s : State) : Result := .next (s.setV x (s.getV x ^^^ s.getV y))

/-- `8xy4`: `V[x] <- V[x] + V[y]`, VF the carry (R149). -/
def execAddReg (x y : Nibble) (s : State) : Result :=
  .next ((s.setV x (s.getV x + s.getV y)).setFlag (carryOf (s.getV x) (s.getV y)))

/-- `8xy5`: `V[x] <- V[x] - V[y]`, VF no borrow (R150). -/
def execSubReg (x y : Nibble) (s : State) : Result :=
  .next ((s.setV x (s.getV x - s.getV y)).setFlag (noBorrowOf (s.getV x) (s.getV y)))

/-- `8xy6`: the operand shifted right by one, VF its old bit 0 (R151, R142; log 7). -/
def execShr (x y : Nibble) (s : State) : Result :=
  .next ((s.setV x (shiftOperand Param.shiftSource x y s >>> 1)).setFlag
    (lowBitOf (shiftOperand Param.shiftSource x y s)))

/-- `8xy7`: `V[x] <- V[y] - V[x]`, VF no borrow (R152). -/
def execSubnReg (x y : Nibble) (s : State) : Result :=
  .next ((s.setV x (s.getV y - s.getV x)).setFlag (noBorrowOf (s.getV y) (s.getV x)))

/-- `8xyE`: the operand shifted left by one, VF its old bit 7 (R153, R142; log 7). -/
def execShl (x y : Nibble) (s : State) : Result :=
  .next ((s.setV x (shiftOperand Param.shiftSource x y s <<< 1)).setFlag
    (highBitOf (shiftOperand Param.shiftSource x y s)))

/-- `Cxkk`: `r <- RAND(); V[x] <- r & kk` (R154; log 2). -/
def execRnd (x : Nibble) (kk : Byte) (s : State) : Result :=
  .next ((drawByte s).2.setV x ((drawByte s).1 &&& kk))

end Sys2Proof.Machine
end

