-- ==== Sys2Proof/Machine/ControlFlow.lean ====
section
/-! DEFINITION. The meanings of the control-flow instructions (40_control_flow.md). On entry PC is
already `a + 2` (10_state.md R24). -/

namespace Sys2Proof.Machine

/-- `0nnn`: nothing (R120). -/
def execSys (_nnn : Addr12) (s : State) : Result := .next s

/-- `00EE`: `t <- pop(); pc <- t` (R121). -/
def execRet (s : State) : Result :=
  orRaise (pop s) s fun p => .next { p.2 with pc := p.1 }

/-- `1nnn`: `pc <- zext_16(nnn)` (R122). -/
def execJp (nnn : Addr12) (s : State) : Result := .next { s with pc := zext12 nnn }

/-- `2nnn`: `push(PC); pc <- zext_16(nnn)` (R123). -/
def execCall (nnn : Addr12) (s : State) : Result :=
  orRaise (push Param.stackLimit s.pc s) s fun t => .next { t with pc := zext12 nnn }

/-- `3xkk`: skip if `V[x] == kk` (R124). -/
def execSeImm (x : Nibble) (kk : Byte) (s : State) : Result := .next (s.skipIf (s.getV x == kk))

/-- `4xkk`: skip if `V[x] != kk` (R125). -/
def execSneImm (x : Nibble) (kk : Byte) (s : State) : Result := .next (s.skipIf (s.getV x != kk))

/-- `5xy0`: skip if `V[x] == V[y]` (R126). -/
def execSeReg (x y : Nibble) (s : State) : Result := .next (s.skipIf (s.getV x == s.getV y))

/-- `9xy0`: skip if `V[x] != V[y]` (R127). -/
def execSneReg (x y : Nibble) (s : State) : Result := .next (s.skipIf (s.getV x != s.getV y))

/-- `Bnnn`: `pc <- zext_16(nnn) + zext_16(V[0])` (R128). -/
def execJpV0 (nnn : Addr12) (s : State) : Result :=
  .next { s with pc := zext12 nnn + zext8 (s.getV 0) }

end Sys2Proof.Machine
end

