-- ==== Sys2Proof/Machine/Sprite.lean ====
section
/-! DEFINITION. Sprite geometry, bit order, clipping, XOR and collision (43_display.md R196 to R200). -/

namespace Sys2Proof.Machine

/-- `rows`: n, or 16 when n is 0 (R196). -/
def spriteRows (n : Nibble) : Nat := if n = 0 then 16 else n.toNat

/-- `bpr`: 2 bytes per row when n is 0 in extended mode, else 1 (R196; log 13). -/
def spriteBytesPerRow (n : Nibble) (m : DisplayMode) : Nat :=
  if n = 0 ∧ m = .extended then 2 else 1

/-- `len`: the bytes of the whole sprite (R196, R200). -/
def spriteLen (n : Nibble) (m : DisplayMode) : Nat := spriteRows n * spriteBytesPerRow n m

/-- The sprite's pixel in column c, row r: bit 7 of a byte is its leftmost pixel, and the byte at the
lower address is the left half of a wide row (R197, R198; log 13). -/
def spriteBit (bpr : Nat) (bytes : List Byte) (c r : Nat) : Bool :=
  (bytes.getD (bpr * r + c / 8) 0).getLsbD (7 - c % 8)

/-- Whether the sprite with origin (x0, y0) has a set bit over the cell (x, y) (R199). -/
def spriteCovers (bpr rows : Nat) (bytes : List Byte) (x0 y0 x y : Nat) : Bool :=
  decide (x0 ≤ x ∧ x < x0 + 8 * bpr ∧ y0 ≤ y ∧ y < y0 + rows) &&
    spriteBit bpr bytes (x - x0) (y - y0)

/-- The buffer after the draw: every sprite bit is XORed into its cell; what falls outside the buffer
is dropped (R199, R200). -/
def drawSprite (m : DisplayMode) (d : Display) (bpr rows : Nat) (bytes : List Byte) (x0 y0 : Nat) :
    Display :=
  Display.ofFn m fun x y => d.get x y ^^ spriteCovers bpr rows bytes x0 y0 x y

/-- Whether an unclipped set bit falls on a lit cell, which the draw turns off (R199, R200). -/
def drawCollides (m : DisplayMode) (d : Display) (bpr rows : Nat) (bytes : List Byte) (x0 y0 : Nat) :
    Bool :=
  (List.range rows).any fun r => (List.range (8 * bpr)).any fun c =>
    decide (y0 + r < m.height ∧ x0 + c < m.width) && spriteBit bpr bytes c r && d.get (x0 + c) (y0 + r)

end Sys2Proof.Machine
end

