-- ==== Sys2Proof/Machine/DisplayInstr.lean ====
section
/-! DEFINITION. The meanings of the display instructions (43_display.md). -/

namespace Sys2Proof.Machine

/-- `00E0`: every cell unlit, the mode unchanged (R190). -/
def execCls (s : State) : Result := .next { s with disp := Display.clear s.mode }

/-- `00Cn`: down by n rows, the top n rows unlit (R191). -/
def execScd (n : Nibble) (s : State) : Result :=
  .next { s with disp := Display.ofFn s.mode fun x y => decide (n.toNat ≤ y) && s.disp.get x (y - n.toNat) }

/-- `00FB`: right by 4 columns, the left 4 unlit (R192). -/
def execScr (s : State) : Result :=
  .next { s with disp := Display.ofFn s.mode fun x y => decide (4 ≤ x) && s.disp.get (x - 4) y }

/-- `00FC`: left by 4 columns, the right 4 unlit (R193). -/
def execScl (s : State) : Result :=
  .next { s with disp := Display.ofFn s.mode fun x y => decide (x + 4 < s.mode.width) && s.disp.get (x + 4) y }

/-- `00FE`: 64 x 32 and every cell unlit (R194; log 13). -/
def execLow (s : State) : Result := .next { s with mode := .legacy, disp := Display.clear .legacy }

/-- `00FF`: 128 x 64 and every cell unlit (R195; log 13). -/
def execHigh (s : State) : Result := .next { s with mode := .extended, disp := Display.clear .extended }

/-- `Dxyn`: XOR-draw the sprite at I with origin (V[x] mod W, V[y] mod H), VF the collision (R200). -/
def execDrw (x y n : Nibble) (s : State) : Result :=
  let bpr := spriteBytesPerRow n s.mode
  let x0 := (s.getV x).toNat % s.mode.width
  let y0 := (s.getV y).toNat % s.mode.height
  orRaise (s.load s.i.toNat (spriteLen n s.mode)) s fun bytes =>
    .next (({ s with disp := drawSprite s.mode s.disp bpr (spriteRows n) bytes x0 y0 } : State).setFlag
      (drawCollides s.mode s.disp bpr (spriteRows n) bytes x0 y0))

end Sys2Proof.Machine
end

