-- ==== Sys2Proof/Machine/IndexMemory.lean ====
section
/-! DEFINITION. The meanings of the address-register, memory and shadow-file instructions
(42_index_memory.md). No load or store changes I (R180). -/

namespace Sys2Proof.Machine

/-- `Annn`: `I <- zext_16(nnn)` (R170). -/
def execLdI (nnn : Addr12) (s : State) : Result := .next { s with i := zext12 nnn }

/-- `Fx1E`: `I <- (I + V[x]) mod 65536`, VF 1 iff the sum exceeds 0xFFF (R171; log 12). -/
def execAddI (x : Nibble) (s : State) : Result :=
  .next (({ s with i := s.i + zext8 (s.getV x) } : State).setFlag (beyondMemory s.i (s.getV x)))

/-- `Fx29`: `I <- FONT_SMALL_BASE + 5 * d` (R172, R174). -/
def execLdF (x : Nibble) (s : State) : Result :=
  orRaise (digitOf Param.operandRange (s.getV x)) s fun d =>
    .next { s with i := BitVec.ofNat 16 (Config.fontSmallBase + 5 * d) }

/-- `Fx30`: `I <- FONT_LARGE_BASE + 10 * d` (R173, R174). -/
def execLdHf (x : Nibble) (s : State) : Result :=
  orRaise (digitOf Param.operandRange (s.getV x)) s fun d =>
    .next { s with i := BitVec.ofNat 16 (Config.fontLargeBase + 10 * d) }

/-- `Fx33`: the digits of `V[x]` to `mem[I..I+2]` (R175; log 13). -/
def execLdB (x : Nibble) (s : State) : Result :=
  orRaise (s.store s.i.toNat (bcdDigits (s.getV x))) s fun t => .next t

/-- `Fx55`: `mem[I+i] <- V[i]` for i in 0..x (R176). -/
def execStoreV (x : Nibble) (s : State) : Result :=
  orRaise (s.store s.i.toNat (s.firstVs x)) s fun t => .next t

/-- `Fx65`: `V[i] <- mem[I+i]` for i in 0..x (R177). -/
def execLoadV (x : Nibble) (s : State) : Result :=
  orRaise (s.load s.i.toNat (x.toNat + 1)) s fun bytes => .next (s.setFirstVs x bytes)

/-- `Fx75`: `R[i] <- V[i]` for i in 0..15, whatever `x` is (R178). -/
def execSaveR (_x : Nibble) (s : State) : Result := .next { s with r := s.v }

/-- `Fx85`: `V[i] <- R[i]` for i in 0..15, whatever `x` is (R179). -/
def execRestoreR (_x : Nibble) (s : State) : Result := .next { s with v := s.r }

end Sys2Proof.Machine
end

