-- ==== Sys2Proof/Machine/KeysTimers.lean ====
section
/-! DEFINITION. The meanings of the key and timer instructions (44_keys_timers.md). -/

namespace Sys2Proof.Machine

/-- `Ex9E`: skip if key `V[x]` is down (R220, R226). -/
def execSkp (x : Nibble) (s : State) : Result :=
  orRaise (keyOf Param.operandRange (s.getV x)) s fun k => .next (s.skipIf (s.keyDown k))

/-- `ExA1`: skip if key `V[x]` is up (R221, R226). -/
def execSknp (x : Nibble) (s : State) : Result :=
  orRaise (keyOf Param.operandRange (s.getV x)) s fun k => .next (s.skipIf (!s.keyDown k))

/-- `Fx0A`: `if keyCount == 0 then pc <- PC - 2 else V[x] <- lastKey` (R222; log 14). -/
def execLdVxK (x : Nibble) (s : State) : Result :=
  if s.keyCount = 0 then .next { s with pc := s.pc - 2 } else .next (s.setV x (s.lastKey.setWidth 8))

/-- `Fx07`: `V[x] <- DT` (R223). -/
def execLdVxDt (x : Nibble) (s : State) : Result := .next (s.setV x s.dt)

/-- `Fx15`: `DT <- V[x]` (R224). -/
def execLdDtVx (x : Nibble) (s : State) : Result := .next { s with dt := s.getV x }

/-- `Fx18`: `ST <- V[x]` (R225). -/
def execLdStVx (x : Nibble) (s : State) : Result := .next { s with st := s.getV x }

end Sys2Proof.Machine
end

