-- ==== Sys2Proof/Machine/Step.lean ====
section
/-! DEFINITION. STEP (45_host_operations.md R242, R243), and the placing of a word where STEP fetches. -/

namespace Sys2Proof.Machine

/-- Decode and execute the fetched word on the state whose PC has advanced; an unrecognised word
raises DecodeError with that PC (30_encoding.md R111). -/
def runFetched (ins : Word) (s : State) : Host.Outcome State Fault Refusal :=
  match decodeWord ins with
  | .ok i => exec i s
  | .error _ => raise (.decodeError ins) s

/-- STEP: on a latched fault nothing changes and the fault is reported again (R243; log 1); else
fetch, advance PC, decode, execute. -/
def step (s : State) : Host.Outcome State Fault Refusal :=
  match s.fault with
  | some f => .fault f
  | none => orRaise s.fetch s fun ins => runFetched ins s.advance

/-- `s` with the instruction of the table's number `w` stored at PC, high byte first (20_memory.md
R66; log 17). -/
def State.withFetchWord (s : State) (nbits w : Nat) : State :=
  { s with mem := s.mem.writeBytes s.pc.toNat (bytesOfWord (BitVec.ofNat 16 (w % 2 ^ nbits))) }

end Sys2Proof.Machine
end

