-- ==== Sys2Proof/Machine/Environment.lean ====
section
/-! DEFINITION. The other six operations of the interface (45_host_operations.md R249) and runs of the
machine under every interleaving of them. -/

namespace Sys2Proof.Machine

/-- TICK: both timers count down by one and stop at 0 (R244). -/
def State.tick (s : State) : State :=
  { s with dt := if s.dt = 0 then 0 else s.dt - 1, st := if s.st = 0 then 0 else s.st - 1 }

/-- PRESS(k) (R245; log 14). -/
def State.press (s : State) (k : Nibble) : State :=
  { s with
    key := s.key.set k.toNat true k.isLt
    keyCount := if s.keyDown k then s.keyCount else s.keyCount + 1
    lastKey := k }

/-- RELEASE(k) (R246). -/
def State.release (s : State) (k : Nibble) : State :=
  { s with
    key := s.key.set k.toNat false k.isLt
    keyCount := if s.keyDown k then s.keyCount - 1 else s.keyCount }

/-- GETDISPLAY: the cells in row-major order, lit as all ones and unlit as all zeros (R247). -/
def State.getDisplay (s : State) : List (BitVec 32) :=
  (List.range s.mode.height).flatMap fun y => (List.range s.mode.width).map fun x =>
    if s.disp.get x y then 0xFFFFFFFF else 0x00000000

/-- LOAD(bytes): `none` is RomLoadError, with memory unchanged (R241, 60_exceptions.md R265). -/
def State.loadRom (s : State) (bytes : List Byte) : Option State :=
  if bytes.length ≤ Config.romMax then some { s with mem := s.mem.writeBytes Config.romBase bytes }
  else none

/-- What the session owner passes to RESET: the font tables (80 and 160 bytes), `MEM_INIT` as the
bytes from 0x0F0 upward, the default zero where the list ends, and `R_INIT` (R240, 00_scope.md R6). -/
structure ResetConfig where
  fontSmall : List Byte
  fontLarge : List Byte
  memInit : List Byte
  rInit : Vector Byte 16
deriving DecidableEq, Repr

/-- The configuration of `State.reset`: the defaults, and the free value FONT_LARGE (logs 3, 4, 6). -/
def ResetConfig.default : ResetConfig where
  fontSmall := Param.fontSmall
  fontLarge := (List.range 160).map Config.fontLarge
  memInit := []
  rInit := Param.rInit

/-- Memory right after RESET: the font copies and `MEM_INIT` (10_state.md R36, R39). -/
def ResetConfig.memory (c : ResetConfig) : Memory :=
  Memory.writeBytes
    (Memory.writeBytes
      (Memory.writeBytes [] Config.fontSmallBase (c.fontSmall.take 80))
      Config.fontLargeBase (c.fontLarge.take 160))
    Config.memInitBase c.memInit

/-- RESET: every component at its value of 10_state.md R39; only `draws`, the model's own, is kept,
so that the oracle's bytes are fresh in the new session (R240; log 2). -/
def State.resetWith (s : State) (c : ResetConfig) : State :=
  { State.reset with mem := c.memory, r := c.rInit, draws := s.draws }

/-- The operations of the interface (R249). -/
inductive Op where
  | reset (c : ResetConfig)
  | load (bytes : List Byte)
  | step
  | tick
  | press (k : Nat)
  | release (k : Nat)
  | getDisplay
deriving DecidableEq, Repr

/-- What an operation returns (R249). -/
inductive Response where
  | none
  | ok
  | romLoadError
  | fault (f : Fault)
  | pixels (words : List (BitVec 32))
deriving DecidableEq, Repr

/-- The machine and what the environment has done since RESET, which decides what it may still do
(R241, R251; log 15). -/
structure Session where
  machine : State
  loaded : Bool
  loadFailed : Bool
  started : Bool
deriving DecidableEq, Repr

/-- A session right after RESET. -/
def Session.fresh (s : State) : Session := ⟨s, false, false, false⟩

/-- The response of a STEP that ended in `t`: `fault` if it set the latch (R242, R243). -/
def stepResponse (t : State) : Response :=
  match t.fault with
  | some f => .fault f
  | none => .ok

/-- STEP as an operation: a faulted machine stays as it is and reports its fault again (R243). -/
def Session.applyStep (m : Session) : Except Refusal (Session × Response) :=
  if m.loadFailed then .error .stepAfterLoadError
  else
    match Machine.step m.machine with
    | .next t => .ok ({ m with machine := t, started := true }, stepResponse t)
    | .fault f => .ok ({ m with started := true }, .fault f)
    | .refused r => .error r

/-- LOAD as an operation (R241; log 15). -/
def Session.applyLoad (bytes : List Byte) (m : Session) : Except Refusal (Session × Response) :=
  if m.started then .error .loadAfterFirstStep
  else if m.loaded then .error .secondLoad
  else
    match m.machine.loadRom bytes with
    | some t => .ok ({ m with machine := t, loaded := true }, .ok)
    | none => .ok ({ m with loadFailed := true }, .romLoadError)

/-- PRESS and RELEASE take a key index of 0 to 15 only (R250). -/
def Session.applyKey (f : State → Nibble → State) (k : Nat) (m : Session) :
    Except Refusal (Session × Response) :=
  if k ≤ 15 then .ok ({ m with machine := f m.machine (BitVec.ofNat 4 k) }, .none)
  else .error (.keyIndexOutOfRange k)

/-- One operation of the environment on a session (R249, R251). -/
def Session.apply (o : Op) (m : Session) : Except Refusal (Session × Response) :=
  match o with
  | .reset c => .ok (Session.fresh (m.machine.resetWith c), .none)
  | .load bytes => m.applyLoad bytes
  | .step => m.applyStep
  | .tick => .ok ({ m with machine := m.machine.tick }, .none)
  | .press k => m.applyKey State.press k
  | .release k => m.applyKey State.release k
  | .getDisplay => .ok (m, .pixels m.machine.getDisplay)

/-- A run: any operations in any order (R248; 20_memory.md R72). -/
def Session.run : List Op → Session → Except Refusal Session
  | [], m => .ok m
  | o :: os, m =>
    match m.apply o with
    | .ok (m', _) => Session.run os m'
    | .error r => .error r

end Sys2Proof.Machine
end

