-- ==== Sys2Proof/Safety.lean ====
section
/-! DEFINITION. What claims are stated in: the invariant of the state, safe runs, frames, and the
spec's own pseudocode of the sprite draw, against which the draw is compared. -/

namespace Sys2Proof.Machine

/-- The buffer has the size of the mode: H rows of W cells (10_state.md R31). -/
abbrev Display.fits (d : Display) (m : DisplayMode) : Prop :=
  d.length = m.height ∧ ∀ row ∈ d, row.length = m.width

/-- `keyCount` is the number of keys that are down (10_state.md R34). -/
abbrev State.keysCounted (s : State) : Prop := s.keyCount = s.key.toList.count true

/-- Every stacked value is an address after a fetched CALL (40_control_flow.md R121, R123). -/
abbrev State.stackOfReturns (s : State) : Prop :=
  ∀ a ∈ s.stack, 2 ≤ a.toNat ∧ a.toNat ≤ Config.memSize

/-- A recorded fault is one that its column "when" allows (60_exceptions.md R260). -/
def Fault.genuine (f : Fault) (s : State) : Bool :=
  match f with
  | .decodeError ins => !(decodeWord ins).toBool
  | .stackUnderflow => s.stack.isEmpty
  | .outOfBounds a => decide (Config.memSize ≤ a)
  | .operandRange b => decide (0xF < b.toNat)
  | .stackOverflow => decide (Param.stackLimit = some s.stack.length)

/-- The latch is empty or holds a genuine fault. -/
abbrev State.faultGenuine (s : State) : Prop := ∀ f ∈ s.fault, f.genuine s = true

/-- The invariant of the machine. -/
structure State.Inv (s : State) : Prop where
  memory : s.mem.wf
  display : s.disp.fits s.mode
  keys : s.keysCounted
  stack : s.stackOfReturns
  latch : s.faultGenuine

/-- A good state is one with no fault (45_host_operations.md R243). -/
abbrev State.safe (s : State) : Prop := s.fault = none

/-- Every byte of memory reads in `t` as in `s`. -/
abbrev SameMemory (s t : State) : Prop := ∀ a, t.mem.read a = s.mem.read a

/-- Every byte of memory outside the `len` bytes from `a` reads in `t` as in `s`. -/
abbrev SameMemoryOutside (a len : Nat) (s t : State) : Prop :=
  ∀ b, b < a ∨ a + len ≤ b → t.mem.read b = s.mem.read b

/-- At most the V registers differ: I, PC, R, the stack, the timers, memory, the display, the keys,
the latch and `draws` are those of `s`. -/
abbrev OnlyV (s t : State) : Prop := t = { s with v := t.v } ∧ SameMemory s t

/-- Every V register but Vx and VF is that of `s`. -/
abbrev OtherVsKept (x : Nibble) (s t : State) : Prop :=
  ∀ j, j ≠ x → j ≠ 0xF → t.getV j = s.getV j

/-- Every V register but Vx is that of `s`. -/
abbrev AllVsKeptBut (x : Nibble) (s t : State) : Prop := ∀ j, j ≠ x → t.getV j = s.getV j

/-- Whether the sprite that `Dxyn` draws in `s` has a set bit over the cell (cx, cy), spelled from
43_display.md R196 to R199 and memory: rows and width by `n` and the mode, origin
(V[x] mod W, V[y] mod H), bit 7 leftmost, the lower byte the left half of a wide row. -/
def State.spriteOver (s : State) (x y n : Nibble) (cx cy : Nat) : Bool :=
  let rows := if n = 0 then 16 else n.toNat
  let wide := decide (n = 0 ∧ s.mode = .extended)
  let cols := if wide then 16 else 8
  let x0 := (s.getV x).toNat % s.mode.width
  let y0 := (s.getV y).toNat % s.mode.height
  decide (x0 ≤ cx ∧ cx < x0 + cols ∧ y0 ≤ cy ∧ cy < y0 + rows) &&
    (if wide then (s.mem.read (s.i.toNat + 2 * (cy - y0) + (cx - x0) / 8)).getLsbD (7 - (cx - x0) % 8)
      else (s.mem.read (s.i.toNat + (cy - y0))).getLsbD (7 - (cx - x0)))

/-- How many bytes `Dxyn` reads (43_display.md R196). -/
def spriteBytes (n : Nibble) (m : DisplayMode) : Nat :=
  if n = 0 then (if m = .extended then 32 else 16) else n.toNat

/-- The V registers an instruction may write: its destination, the range of `Fx65`, all of them for
`Fx85`, and VF as a flag (10_state.md R21, R22). -/
def writesV (i : Instr) (j : Nibble) : Bool :=
  match i with
  | .ldImm x _ | .addImm x _ | .rnd x _ => j == x
  | .ldReg x _ | .orReg x _ | .andReg x _ | .xorReg x _ => j == x
  | .addReg x _ | .subReg x _ | .shr x _ | .subnReg x _ | .shl x _ => j == x || j == 0xF
  | .ldVxDt x | .ldVxK x => j == x
  | .addI _ | .drw _ _ _ => j == 0xF
  | .loadV x => decide (j.toNat ≤ x.toNat)
  | .restoreR _ => true
  | .cls | .scd _ | .ret | .scr | .scl | .low | .high | .sys _ | .jp _ | .call _ | .jpV0 _ | .ldI _ => false
  | .seImm _ _ | .sneImm _ _ | .seReg _ _ | .sneReg _ _ | .skp _ | .sknp _ => false
  | .ldDtVx _ | .ldStVx _ | .ldF _ | .ldHf _ | .ldB _ | .storeV _ | .saveR _ => false

/-- The word at PC, as the fetch reads it (20_memory.md R65, R66). -/
def State.wordAtPc (s : State) : Word :=
  wordOfBytes (s.mem.read s.pc.toNat) (s.mem.read (s.pc.toNat + 1))

/-- The cell (x, y) set to `b`, in the spec's words `disp[x, y] <- b`. -/
def Display.setCell (m : DisplayMode) (d : Display) (x y : Nat) (b : Bool) : Display :=
  Display.ofFn m fun x' y' => if x' = x ∧ y' = y then b else d.get x' y'

/-- The innermost lines of the pseudocode of 43_display.md R200: a set bit over a lit cell turns it off
and sets VF, a set bit over an unlit cell turns it on. -/
def plotPixel (m : DisplayMode) (x y : Nat) (acc : Display × Bool) : Display × Bool :=
  if acc.1.get x y then (acc.1.setCell m x y false, true) else (acc.1.setCell m x y true, acc.2)

/-- `for c in 0 .. cols-1` of 43_display.md R200. -/
def drawRowLoop (m : DisplayMode) (bpr : Nat) (bytes : List Byte) (x0 y0 r : Nat) (acc : Display × Bool) :
    Display × Bool :=
  (List.range (8 * bpr)).foldl (fun acc c =>
    if m.width ≤ x0 + c then acc
    else if spriteBit bpr bytes c r then plotPixel m (x0 + c) (y0 + r) acc
    else acc) acc

/-- `for r in 0 .. rows-1` of 43_display.md R200, from the buffer `d` and VF = 0. -/
def drawLoop (m : DisplayMode) (d : Display) (bpr rows : Nat) (bytes : List Byte) (x0 y0 : Nat) :
    Display × Bool :=
  (List.range rows).foldl (fun acc r =>
    if m.height ≤ y0 + r then acc else drawRowLoop m bpr bytes x0 y0 r acc) (d, false)

end Sys2Proof.Machine
end

