-- ==== Sys2Proof/Certificates/Slice0/Obligations.lean ====
section
/-! DEFINITION. The statements. Each docstring names the rule of the spec, and where a clause rests on a
decision of the spec (D<n>) or of the model (log <n>). -/

open Sys2Proof Sys2Proof.Machine

/-! ### Reset and the invariant -/

/-- 10_state.md R39. PC = 0x200 and the fonts' places are the source's. The other values are the
spec's decisions D3 to D6 (log 6), FONT_SMALL is its default (log 4), FONT_LARGE is free (log 3).
`lastKey` and `draws` are the model's choice and not stated (logs 5, 2). -/
def Obligations.ResetStateValues : Prop :=
  State.reset.pc = 0x200 ∧ (∀ x, State.reset.getV x = 0) ∧ State.reset.i = 0 ∧
  State.reset.dt = 0 ∧ State.reset.st = 0 ∧ State.reset.stack = [] ∧
  (∀ k : Fin 16, State.reset.r[k] = 0) ∧ State.reset.mode = .legacy ∧
  (∀ x y, State.reset.disp.get x y = false) ∧ (∀ k, State.reset.keyDown k = false) ∧
  State.reset.keyCount = 0 ∧ State.reset.fault = none ∧
  (∀ a < 80, State.reset.mem.read a = Param.fontSmall.getD a 0) ∧
  (∀ j < 160, State.reset.mem.read (0x050 + j) = Config.fontLarge j) ∧
  (∀ a, 0x0F0 ≤ a → a < 0x1000 → State.reset.mem.read a = 0)

/-- The invariant holds right after reset. -/
def Obligations.ResetMeetsInvariant : Prop := State.reset.Inv

/-- Every STEP keeps the invariant: canonical memory (20_memory.md R61, R63), a display buffer of the
mode's size (10_state.md R31), `keyCount` the number of keys down (R34), stacked values that are
addresses after a CALL (40_control_flow.md R121), a latch that is empty or genuine (60_exceptions.md R260). -/
def Obligations.StepKeepsInvariant : Prop :=
  ∀ s t : State, s.Inv → step s = .next t → t.Inv

/-- Every interleaving of the seven operations keeps the invariant (45_host_operations.md R248). -/
def Obligations.EveryInterleavingKeepsInvariant : Prop :=
  ∀ (ops : List Op) (m m' : Session), m.machine.Inv → Session.run ops m = .ok m' → m'.machine.Inv

/-! ### Encoding -/

/-- 30_encoding.md R94, R100: no operand bit is lost, of any well-formed instruction. -/
def Obligations.DecodeOfEncodeIsTheInstruction : Prop :=
  ∀ i : Instr, i.wf = true →
    decodeWord (encode i) = .ok i ∧ ∀ rest, decodeBytes (encodeBytes i ++ rest) = .ok (i, rest)

/-- 30_encoding.md R94, R105 (D12, log 9): each accepted word is the encoding of what it decodes to. -/
def Obligations.EncodeOfDecodeIsTheWord : Prop :=
  ∀ (w : Word) (i : Instr), decodeWord w = .ok i → i.wf = true ∧ encode i = w

/-- 30_encoding.md R100: a word decodes to a row it selects, and a row other than SYS is the only one
its words can decode to. -/
def Obligations.WordsSelectTheirRow : Prop :=
  (∀ (w : Word) (i : Instr), decodeWord w = .ok i → w &&& i.row.1 = i.row.2) ∧
  (∀ (w : Word) (i : Instr), (∀ nnn, i ≠ .sys nnn) → w &&& i.row.1 = i.row.2 →
    ∃ j, decodeWord w = .ok j ∧ j.row = i.row)

/-- 30_encoding.md R102, R103, R104: the words of families 8, E and F that are no instruction. -/
def Obligations.RejectedWordsOfFamilies8EF : Prop :=
  (∀ x y n, (∃ e, decodeWord (wordXYN 0x8 x y n) = .error e) ↔
    n ∈ ([0x8, 0x9, 0xA, 0xB, 0xC, 0xD, 0xF] : List Nibble)) ∧
  (∀ x kk, (∃ e, decodeWord (wordXKK 0xE x kk) = .error e) ↔ kk ≠ 0x9E ∧ kk ≠ 0xA1) ∧
  (∀ x kk, (∃ e, decodeWord (wordXKK 0xF x kk) = .error e) ↔
    kk ∉ ([0x07, 0x0A, 0x15, 0x18, 0x1E, 0x29, 0x30, 0x33, 0x55, 0x65, 0x75, 0x85] : List Byte))

/-- 30_encoding.md R105 (the spec's decision D12, log 9), and R101, R106: families 5 and 9 reject a low
nibble other than 0, and every other family but 8, E and F rejects nothing. -/
def Obligations.LowNibblesAndTotalFamilies : Prop :=
  (∀ x y n, (∃ e, decodeWord (wordXYN 0x5 x y n) = .error e) ↔ n ≠ 0) ∧
  (∀ x y n, (∃ e, decodeWord (wordXYN 0x9 x y n) = .error e) ↔ n ≠ 0) ∧
  (∀ w : Word, fieldFam w ∉ ([0x5, 0x8, 0x9, 0xE, 0xF] : List Nibble) → ∃ i, decodeWord w = .ok i)

/-- Words of the spec's own programs (95_test_vectors.md E7, E8, P3, P5, P6). -/
def Obligations.WordsOfTheSpecPrograms : Prop :=
  decodeWord 0x00E0 = .ok .cls ∧ decodeWord 0x6005 = .ok (.ldImm 0 0x05) ∧
  decodeWord 0x7003 = .ok (.addImm 0 0x03) ∧ decodeWord 0xA200 = .ok (.ldI 0x200) ∧
  decodeWord 0xD005 = .ok (.drw 0 0 5) ∧ decodeWord 0x2210 = .ok (.call 0x210) ∧
  decodeWord 0xFA33 = .ok (.ldB 0xA) ∧ decodeWord 0xF265 = .ok (.loadV 2) ∧
  decodeWord 0xF00A = .ok (.ldVxK 0) ∧ decodeWord 0x3100 = .ok (.seImm 1 0x00) ∧
  decodeWord 0x00C2 = .ok (.scd 2) ∧ decodeWord 0x8014 = .ok (.addReg 0 1)

/-! ### STEP and faults -/

/-- 45_host_operations.md R242, 20_memory.md R65, R66, 10_state.md R24: a STEP runs the instruction at
PC with PC already advanced by 2, and does nothing else. -/
def Obligations.StepRunsTheDecodedInstruction : Prop :=
  ∀ (s : State) (i : Instr), s.fault = none → s.pc.toNat ≤ 0xFFE →
    decodeWord (wordOfBytes (s.mem.read s.pc.toNat) (s.mem.read (s.pc.toNat + 1))) = .ok i →
    step s = exec i { s with pc := s.pc + 2 }

/-- 30_encoding.md R111: an unrecognised word at PC sets the latch to DecodeError of the word, PC holds
a + 2 and nothing else changes. That the step answers a next state with the latch set is the model's
choice after D11 (log 1). -/
def Obligations.UnrecognisedWordRaisesDecodeError : Prop :=
  ∀ (s : State) (e : DecodeError), s.fault = none → s.pc.toNat ≤ 0xFFE →
    decodeWord (wordOfBytes (s.mem.read s.pc.toNat) (s.mem.read (s.pc.toNat + 1))) = .error e →
    step s = .next { s with pc := s.pc + 2,
                            fault := some (.decodeError
                              (wordOfBytes (s.mem.read s.pc.toNat) (s.mem.read (s.pc.toNat + 1)))) }

/-- 20_memory.md R65 (D7, D8; log 11): a fetch beyond memory raises OutOfBounds and leaves PC;
a next state with the latch set (D11; log 1). -/
def Obligations.FetchBeyondMemoryRaisesOutOfBounds : Prop :=
  ∀ s : State, s.fault = none →
    (s.pc.toNat = 0xFFF → step s = .next { s with fault := some (.outOfBounds 0x1000) }) ∧
    (0xFFF < s.pc.toNat → step s = .next { s with fault := some (.outOfBounds s.pc.toNat) })

/-- 45_host_operations.md R243 (D11; log 1): a faulted machine gives no next state and reports the
recorded fault; as an operation of a session, STEP leaves the machine as it is. -/
def Obligations.FaultedMachineStaysHalted : Prop :=
  ∀ (s : State) (f : Fault), s.fault = some f →
    step s = .fault f ∧
    ∀ m : Session, m.machine = s → m.loadFailed = false →
      m.apply .step = .ok ({ m with started := true }, .fault f)

/-- 30_encoding.md R94, 45_host_operations.md R242, R243: every instruction answers a next state, and a
STEP answers one unless the latch is set; nothing is refused. That an instruction or a STEP which raises
a fault still answers a next state, the latch set, is the model's choice after D11 (log 1). -/
def Obligations.EveryInstructionAnswers : Prop :=
  (∀ (i : Instr) (s : State), ∃ t, exec i s = .next t) ∧
  (∀ s : State, s.fault = none → ∃ t, step s = .next t)

/-- 60_exceptions.md R266 (D11; log 1): a STEP that raises a fault leaves the state before it, with PC
advanced by 2 unless the fetch faulted, and the latch set. -/
def Obligations.FaultsArePrecise : Prop :=
  ∀ (s t : State) (f : Fault), s.fault = none → step s = .next t → t.fault = some f →
    (s.pc.toNat ≤ 0xFFE ∧ t = { s with pc := s.pc + 2, fault := some f }) ∨
    (0xFFE < s.pc.toNat ∧ t = { s with fault := some f })

/-- 60_exceptions.md R260, R267 (D8, D9, D10, D16, D17; logs 8, 10, 11): which instruction raises which
fault, and when; no other instruction can fault. The fault shows in the latch of a next state (D11; log 1). -/
def Obligations.WhichInstructionRaisesWhichFault : Prop :=
  ∀ (i : Instr) (s t : State) (f : Fault), s.fault = none → exec i s = .next t → t.fault = some f →
    (i = .ret ∧ s.stack = [] ∧ f = .stackUnderflow) ∨
    (∃ x, (i = .ldF x ∨ i = .ldHf x ∨ i = .skp x ∨ i = .sknp x) ∧ 0xF < (s.getV x).toNat ∧
      f = .operandRange (s.getV x)) ∨
    (∃ x, i = .ldB x ∧ 0xFFF < s.i.toNat + 2 ∧ f = .outOfBounds (s.i.toNat + 2)) ∨
    (∃ x, (i = .storeV x ∨ i = .loadV x) ∧ 0xFFF < s.i.toNat + x.toNat ∧
      f = .outOfBounds (s.i.toNat + x.toNat)) ∨
    (∃ x y n, i = .drw x y n ∧ 0xFFF < s.i.toNat + spriteBytes n s.mode - 1 ∧
      f = .outOfBounds (s.i.toNat + spriteBytes n s.mode - 1))

/-- 20_memory.md R69, 43_display.md R197 (D8, D21; log 11): an access whose footprint passes 0xFFF has
no effect but the latch of a next state (D11; log 1), clipped sprite rows counted in. -/
def Obligations.FootprintBeyondMemoryHasNoEffect : Prop :=
  ∀ (s : State) (x y n : Nibble),
    (0xFFF < s.i.toNat + 2 →
      exec (.ldB x) s = .next { s with fault := some (.outOfBounds (s.i.toNat + 2)) }) ∧
    (0xFFF < s.i.toNat + x.toNat →
      exec (.storeV x) s = .next { s with fault := some (.outOfBounds (s.i.toNat + x.toNat)) } ∧
      exec (.loadV x) s = .next { s with fault := some (.outOfBounds (s.i.toNat + x.toNat)) }) ∧
    (0xFFF < s.i.toNat + spriteBytes n s.mode - 1 →
      exec (.drw x y n) s =
        .next { s with fault := some (.outOfBounds (s.i.toNat + spriteBytes n s.mode - 1)) })

/-! ### Control flow -/

/-- 40_control_flow.md R120. -/
def Obligations.SysIsIgnored : Prop := ∀ (nnn : Addr12) (s : State), exec (.sys nnn) s = .next s

/-- 40_control_flow.md R122, R128: the targets and nothing else. That a target is not reduced at 0x1000
is the spec's decision D7 (log 11). -/
def Obligations.JumpsSetOnlyPc : Prop :=
  ∀ (nnn : Addr12) (s : State),
    (∃ t, exec (.jp nnn) s = .next t ∧ t = { s with pc := t.pc } ∧ t.pc.toNat = nnn.toNat) ∧
    (∃ t, exec (.jpV0 nnn) s = .next t ∧ t = { s with pc := t.pc } ∧
      t.pc.toNat = nnn.toNat + (s.getV 0).toNat)

/-- 40_control_flow.md R123, with the default STACK_LIMIT (D10; log 10). -/
def Obligations.CallPushesTheReturnAddress : Prop :=
  ∀ (nnn : Addr12) (s : State),
    exec (.call nnn) s = .next { s with stack := s.stack ++ [s.pc], pc := nnn.setWidth 16 }

/-- 40_control_flow.md R121; the empty stack by D9 (log 10), a next state with the latch set (D11; log 1). -/
def Obligations.ReturnPopsTheNewestAddress : Prop :=
  ∀ s : State,
    (∀ l a, s.stack = l ++ [a] → exec .ret s = .next { s with stack := l, pc := a }) ∧
    (s.stack = [] → exec .ret s = .next { s with fault := some .stackUnderflow })

/-- 40_control_flow.md R121, R123: a RET that finds the stack as a CALL left it goes back to the
address after the CALL, and the stack is as it was before. -/
def Obligations.ReturnUndoesCall : Prop :=
  ∀ (nnn : Addr12) (s t u : State), exec (.call nnn) s = .next t → u.stack = t.stack →
    exec .ret u = .next { u with stack := s.stack, pc := s.pc }

/-- 10_state.md R30 (D9, D10; log 10): the policies of push and pop, for every STACK_LIMIT. -/
def Obligations.StackPolicies : Prop :=
  ∀ (limit : Option Nat) (w : Word) (s : State),
    (limit = some s.stack.length → push limit w s = .error .stackOverflow) ∧
    (limit ≠ some s.stack.length → push limit w s = .ok { s with stack := s.stack ++ [w] }) ∧
    (s.stack = [] → pop s = .error .stackUnderflow) ∧
    pop { s with stack := s.stack ++ [w] } = .ok (w, s)

/-- 40_control_flow.md R124, R125, R126, R127: the four compare-and-skip instructions. -/
def Obligations.SkipsCompareForEquality : Prop :=
  ∀ (x y : Nibble) (kk : Byte) (s : State),
    exec (.seImm x kk) s = .next { s with pc := if s.getV x = kk then s.pc + 2 else s.pc } ∧
    exec (.sneImm x kk) s = .next { s with pc := if s.getV x = kk then s.pc else s.pc + 2 } ∧
    exec (.seReg x y) s = .next { s with pc := if s.getV x = s.getV y then s.pc + 2 else s.pc } ∧
    exec (.sneReg x y) s = .next { s with pc := if s.getV x = s.getV y then s.pc else s.pc + 2 }

/-- 45_host_operations.md R252, 44_keys_timers.md R222, R227: at a self-jump, and at a key wait with no
key down, any number of STEPs changes nothing. -/
def Obligations.SpinsChangeNothing : Prop :=
  ∀ (s : State) (nnn : Addr12) (x : Nibble), s.fault = none → s.pc.toNat ≤ 0xFFE →
    (s.pc.toNat = nnn.toNat → decodeWord s.wordAtPc = .ok (.jp nnn) →
      ∀ k, Sys2Proof.core.run k s = .next s) ∧
    (s.keyCount = 0 → decodeWord s.wordAtPc = .ok (.ldVxK x) →
      ∀ k, Sys2Proof.core.run k s = .next s)

/-- 40_control_flow.md R120, 70_reset_and_hazards.md R299 (D7 at the end): zeroed memory is slid
through, two bytes a STEP, up to PC = 0x1000. -/
def Obligations.ZeroedMemoryIsSlidThrough : Prop :=
  ∀ (k : Nat) (s : State), s.fault = none → s.pc.toNat + 2 * k ≤ 0x1000 →
    (∀ a, s.pc.toNat ≤ a → a < s.pc.toNat + 2 * k → s.mem.read a = 0) →
    Sys2Proof.core.run k s = .next { s with pc := s.pc + BitVec.ofNat 16 (2 * k) }

/-! ### Registers and flags -/

/-- 41_alu.md R143, R144, R145: no flag is written. -/
def Obligations.LoadAndAddImmediateResults : Prop :=
  ∀ (x y : Nibble) (kk : Byte) (s : State),
    (∃ t, exec (.ldImm x kk) s = .next t ∧ t.getV x = kk ∧ AllVsKeptBut x s t ∧ OnlyV s t) ∧
    (∃ t, exec (.addImm x kk) s = .next t ∧
      (t.getV x).toNat = ((s.getV x).toNat + kk.toNat) % 256 ∧ AllVsKeptBut x s t ∧ OnlyV s t) ∧
    (∃ t, exec (.ldReg x y) s = .next t ∧ t.getV x = s.getV y ∧ AllVsKeptBut x s t ∧ OnlyV s t)

/-- 41_alu.md R146, R147, R148: bit by bit. That VF is left alone is the spec's decision D2 (log 16). -/
def Obligations.LogicResultsBitByBit : Prop :=
  ∀ (x y : Nibble) (s : State),
    (∃ t, exec (.orReg x y) s = .next t ∧
      (∀ k, (t.getV x).getLsbD k = ((s.getV x).getLsbD k || (s.getV y).getLsbD k)) ∧
      AllVsKeptBut x s t ∧ OnlyV s t) ∧
    (∃ t, exec (.andReg x y) s = .next t ∧
      (∀ k, (t.getV x).getLsbD k = ((s.getV x).getLsbD k && (s.getV y).getLsbD k)) ∧
      AllVsKeptBut x s t ∧ OnlyV s t) ∧
    (∃ t, exec (.xorReg x y) s = .next t ∧
      (∀ k, (t.getV x).getLsbD k = ((s.getV x).getLsbD k ^^ (s.getV y).getLsbD k)) ∧
      AllVsKeptBut x s t ∧ OnlyV s t)

/-- 41_alu.md R149; with x = F the flag is what VF ends as (R141, D14; log 12). -/
def Obligations.AddSetsTheCarry : Prop :=
  ∀ (x y : Nibble) (s : State), ∃ t, exec (.addReg x y) s = .next t ∧
    (x ≠ 0xF → (t.getV x).toNat = ((s.getV x).toNat + (s.getV y).toNat) % 256) ∧
    t.getV 0xF = (if (s.getV x).toNat + (s.getV y).toNat > 255 then 1 else 0) ∧
    OtherVsKept x s t ∧ OnlyV s t

/-- 41_alu.md R150, R152; with x = F the flag is what VF ends as (R141, D14; log 12). -/
def Obligations.SubtractionsSetNoBorrow : Prop :=
  ∀ (x y : Nibble) (s : State),
    (∃ t, exec (.subReg x y) s = .next t ∧
      (x ≠ 0xF → (t.getV x).toNat = ((s.getV x).toNat + 256 - (s.getV y).toNat) % 256) ∧
      t.getV 0xF = (if (s.getV x).toNat ≥ (s.getV y).toNat then 1 else 0) ∧
      OtherVsKept x s t ∧ OnlyV s t) ∧
    (∃ t, exec (.subnReg x y) s = .next t ∧
      (x ≠ 0xF → (t.getV x).toNat = ((s.getV y).toNat + 256 - (s.getV x).toNat) % 256) ∧
      t.getV 0xF = (if (s.getV y).toNat ≥ (s.getV x).toNat then 1 else 0) ∧
      OtherVsKept x s t ∧ OnlyV s t)

/-- 41_alu.md R151, R153 with the default SHIFT_SOURCE = Vx (R142, D13; log 7); with x = F the flag is
what VF ends as (R141, D14; log 12). -/
def Obligations.ShiftsMoveOneBit : Prop :=
  ∀ (x y : Nibble) (s : State),
    (∃ t, exec (.shr x y) s = .next t ∧ (x ≠ 0xF → (t.getV x).toNat = (s.getV x).toNat / 2) ∧
      (t.getV 0xF).toNat = (s.getV x).toNat % 2 ∧ OtherVsKept x s t ∧ OnlyV s t) ∧
    (∃ t, exec (.shl x y) s = .next t ∧ (x ≠ 0xF → (t.getV x).toNat = 2 * (s.getV x).toNat % 256) ∧
      (t.getV 0xF).toNat = (s.getV x).toNat / 128 ∧ OtherVsKept x s t ∧ OnlyV s t)

/-- 41_alu.md R154: some drawn byte, masked (D25; log 2). The byte is a free value. -/
def Obligations.RandomByteIsMasked : Prop :=
  ∀ (x : Nibble) (kk : Byte) (s : State), ∃ t, exec (.rnd x kk) s = .next t ∧
    t.getV x = (Config.rand s.draws &&& kk) ∧ t.getV x &&& ~~~kk = 0 ∧ (kk = 0 → t.getV x = 0) ∧
    AllVsKeptBut x s t ∧ t = { s with v := t.v, draws := s.draws + 1 } ∧ SameMemory s t

/-- 10_state.md R21, R22: a V register that an instruction does not write keeps its value; VF is
written as a flag by the seven instructions listed and by no other (the closed world of 00_scope.md R10,
D2; log 16). -/
def Obligations.UnwrittenRegistersKeepTheirValue : Prop :=
  ∀ (i : Instr) (s t : State) (j : Nibble), exec i s = .next t → writesV i j = false →
    t.getV j = s.getV j

/-! ### I, memory and the shadow file -/

/-- 42_index_memory.md R170. -/
def Obligations.LoadIZeroExtends : Prop :=
  ∀ (nnn : Addr12) (s : State), ∃ t, exec (.ldI nnn) s = .next t ∧ t = { s with i := t.i } ∧
    t.i.toNat = nnn.toNat

/-- 42_index_memory.md R171 (VF = 0 without overflow and the 16-bit I by D15; log 12). -/
def Obligations.AddIKeepsSixteenBits : Prop :=
  ∀ (x : Nibble) (s : State), ∃ t, exec (.addI x) s = .next t ∧
    t.i.toNat = (s.i.toNat + (s.getV x).toNat) % 65536 ∧
    t.getV 0xF = (if s.i.toNat + (s.getV x).toNat > 0xFFF then 1 else 0) ∧
    AllVsKeptBut 0xF s t ∧ t = { s with v := t.v, i := t.i } ∧ SameMemory s t

/-- 42_index_memory.md R172, R173; a byte above 0xF by R174 (D16; log 8), a next state with the latch
set (D11; log 1). -/
def Obligations.GlyphAddresses : Prop :=
  ∀ (x : Nibble) (s : State),
    ((s.getV x).toNat ≤ 0xF →
      (∃ t, exec (.ldF x) s = .next t ∧ t = { s with i := t.i } ∧ t.i.toNat = 5 * (s.getV x).toNat) ∧
      (∃ t, exec (.ldHf x) s = .next t ∧ t = { s with i := t.i } ∧
        t.i.toNat = 0x050 + 10 * (s.getV x).toNat)) ∧
    (0xF < (s.getV x).toNat →
      exec (.ldF x) s = .next { s with fault := some (.operandRange (s.getV x)) } ∧
      exec (.ldHf x) s = .next { s with fault := some (.operandRange (s.getV x)) })

/-- 42_index_memory.md R175 (digit order by D18; log 13), in canonical memory. -/
def Obligations.BcdDigitsAreStored : Prop :=
  ∀ (x : Nibble) (s : State), s.mem.wf → s.i.toNat ≤ 0xFFD →
    ∃ t, exec (.ldB x) s = .next t ∧ t = { s with mem := t.mem } ∧
      (t.mem.read s.i.toNat).toNat = (s.getV x).toNat / 100 ∧
      (t.mem.read (s.i.toNat + 1)).toNat = (s.getV x).toNat / 10 % 10 ∧
      (t.mem.read (s.i.toNat + 2)).toNat = (s.getV x).toNat % 10 ∧
      SameMemoryOutside s.i.toNat 3 s t

/-- 42_index_memory.md R176, in canonical memory. I is kept by D22 (log 13), nothing is written out of
range by D8 (log 11), and the fault is a next state with the latch set (D11; log 1). -/
def Obligations.BlockStoreWritesV0ToVx : Prop :=
  ∀ (x : Nibble) (s : State),
    (s.mem.wf → s.i.toNat + x.toNat ≤ 0xFFF →
      ∃ t, exec (.storeV x) s = .next t ∧ t = { s with mem := t.mem } ∧
        (∀ j : Nibble, j.toNat ≤ x.toNat → t.mem.read (s.i.toNat + j.toNat) = s.getV j) ∧
        SameMemoryOutside s.i.toNat (x.toNat + 1) s t) ∧
    (0xFFF < s.i.toNat + x.toNat →
      exec (.storeV x) s = .next { s with fault := some (.outOfBounds (s.i.toNat + x.toNat)) })

/-- 42_index_memory.md R177. I is kept by D22 (log 13), nothing is loaded out of range by D8 (log 11),
and the fault is a next state with the latch set (D11; log 1). -/
def Obligations.BlockLoadReadsV0ToVx : Prop :=
  ∀ (x : Nibble) (s : State),
    (s.i.toNat + x.toNat ≤ 0xFFF →
      ∃ t, exec (.loadV x) s = .next t ∧ OnlyV s t ∧
        ∀ j : Nibble, t.getV j =
          if j.toNat ≤ x.toNat then s.mem.read (s.i.toNat + j.toNat) else s.getV j) ∧
    (0xFFF < s.i.toNat + x.toNat →
      exec (.loadV x) s = .next { s with fault := some (.outOfBounds (s.i.toNat + x.toNat)) })

/-- 20_memory.md R75: a word stored over the next instruction is the next one executed. -/
def Obligations.StoredWordRunsNext : Prop :=
  ∀ (x a b : Nibble) (s t : State), s.fault = none → s.mem.wf → s.i.toNat + x.toNat ≤ 0xFFF →
    b.toNat ≤ x.toNat → b.toNat = a.toNat + 1 → s.pc.toNat = s.i.toNat + a.toNat →
    exec (.storeV x) s = .next t →
    step t = runFetched (wordOfBytes (s.getV a) (s.getV b)) { t with pc := t.pc + 2 }

/-- 42_index_memory.md R178, R179: all sixteen, whatever x is. -/
def Obligations.ShadowFileMovesAllSixteen : Prop :=
  ∀ (x : Nibble) (s : State),
    (∃ t, exec (.saveR x) s = .next t ∧ t = { s with r := t.r } ∧ ∀ k : Fin 16, t.r[k] = s.v[k]) ∧
    (∃ t, exec (.restoreR x) s = .next t ∧ OnlyV s t ∧ ∀ k : Fin 16, t.v[k] = s.r[k])

/-- 42_index_memory.md R178, R179, 10_state.md R26: Fx85 brings back what Fx75 saved, whatever any
instruction but Fx75 did to the state between them. -/
def Obligations.RestoreBringsBackTheSaved : Prop :=
  ∀ (x y : Nibble) (i : Instr) (s t u : State), (∀ z, i ≠ .saveR z) →
    exec (.saveR x) s = .next t → exec i t = .next u →
    exec (.restoreR y) u = .next { u with v := s.v }

/-! ### Display -/

/-- 43_display.md R190, with the export of 45_host_operations.md R247. -/
def Obligations.ClearYieldsAnUnlitBuffer : Prop :=
  ∀ s : State, ∃ t, exec .cls s = .next t ∧ t = { s with disp := t.disp } ∧ SameMemory s t ∧
    t.disp.fits s.mode ∧ (∀ x y, t.disp.get x y = false) ∧
    t.getDisplay = List.replicate (s.mode.width * s.mode.height) 0x00000000

/-- 43_display.md R191, R192, R193: each cell, and nothing but the buffer. That the distances are the
same in both modes is the spec's decision D31 (log 13). -/
def Obligations.ScrollsMoveEveryCell : Prop :=
  ∀ (n : Nibble) (s : State),
    (∃ t, exec (.scd n) s = .next t ∧ t = { s with disp := t.disp } ∧ SameMemory s t ∧
      t.disp.fits s.mode ∧ ∀ x < s.mode.width, ∀ y < s.mode.height,
        t.disp.get x y = if y < n.toNat then false else s.disp.get x (y - n.toNat)) ∧
    (∃ t, exec .scr s = .next t ∧ t = { s with disp := t.disp } ∧ SameMemory s t ∧
      t.disp.fits s.mode ∧ ∀ x < s.mode.width, ∀ y < s.mode.height,
        t.disp.get x y = if x < 4 then false else s.disp.get (x - 4) y) ∧
    (∃ t, exec .scl s = .next t ∧ t = { s with disp := t.disp } ∧ SameMemory s t ∧
      t.disp.fits s.mode ∧ ∀ x < s.mode.width, ∀ y < s.mode.height,
        t.disp.get x y = if x + 4 < s.mode.width then s.disp.get (x + 4) y else false)

/-- 43_display.md R202: both scroll round trips, by 4 columns in both modes (D31; log 13). -/
def Obligations.ScrollRoundTrip : Prop :=
  ∀ s t u : State,
    (exec .scr s = .next t → exec .scl t = .next u →
      ∀ x < s.mode.width, ∀ y < s.mode.height,
        u.disp.get x y = if x + 4 < s.mode.width then s.disp.get x y else false) ∧
    (exec .scl s = .next t → exec .scr t = .next u →
      ∀ x < s.mode.width, ∀ y < s.mode.height,
        u.disp.get x y = if x < 4 then false else s.disp.get x y)

/-- 43_display.md R194, R195: they clear whether or not the mode changes (D30; log 13). -/
def Obligations.ModeSwitchesClear : Prop :=
  ∀ s : State,
    (∃ t, exec .low s = .next t ∧ t = { s with mode := .legacy, disp := t.disp } ∧ SameMemory s t ∧
      t.disp.fits .legacy ∧ ∀ x y, t.disp.get x y = false) ∧
    (∃ t, exec .high s = .next t ∧ t = { s with mode := .extended, disp := t.disp } ∧ SameMemory s t ∧
      t.disp.fits .extended ∧ ∀ x y, t.disp.get x y = false)

/-- 43_display.md R196 to R200 (bit order by D19, legacy `Dxy0` by D20; log 13): each cell is XORed with
the sprite bit over it, VF is 1 iff a lit cell was turned off, else 0. -/
def Obligations.DrawXorsAndFlagsCollision : Prop :=
  ∀ (x y n : Nibble) (s : State), s.i.toNat + spriteBytes n s.mode - 1 ≤ 0xFFF →
    ∃ t, exec (.drw x y n) s = .next t ∧ t = { s with v := t.v, disp := t.disp } ∧ SameMemory s t ∧
      AllVsKeptBut 0xF s t ∧ t.disp.fits s.mode ∧
      (∀ cx < s.mode.width, ∀ cy < s.mode.height,
        t.disp.get cx cy = (s.disp.get cx cy ^^ s.spriteOver x y n cx cy)) ∧
      ((∃ cx < s.mode.width, ∃ cy < s.mode.height,
        s.disp.get cx cy = true ∧ s.spriteOver x y n cx cy = true) → t.getV 0xF = 1) ∧
      ((∀ cx < s.mode.width, ∀ cy < s.mode.height,
        s.disp.get cx cy = true → s.spriteOver x y n cx cy = false) → t.getV 0xF = 0)

/-- 43_display.md R200: drawing the same sprite twice at the same coordinates restores the buffer, and
VF is 1 on the second draw iff the first lit a cell. -/
def Obligations.DrawTwiceRestoresTheBuffer : Prop :=
  ∀ (x y n : Nibble) (s t u : State), s.disp.fits s.mode →
    s.i.toNat + spriteBytes n s.mode - 1 ≤ 0xFFF →
    exec (.drw x y n) s = .next t → t.getV x = s.getV x → t.getV y = s.getV y →
    exec (.drw x y n) t = .next u →
    u.disp = s.disp ∧
    (u.getV 0xF = 1 ↔ ∃ cx < s.mode.width, ∃ cy < s.mode.height,
      s.disp.get cx cy = false ∧ t.disp.get cx cy = true) ∧
    (u.getV 0xF = 0 ∨ u.getV 0xF = 1)

/-- 43_display.md R200: the model's draw and collision are what the spec's two nested loops compute,
on a buffer of the mode's size. -/
def Obligations.DrawEqualsThePseudocodeLoops : Prop :=
  ∀ (m : DisplayMode) (d : Display) (bpr rows : Nat) (bytes : List Byte) (x0 y0 : Nat), d.fits m →
    drawLoop m d bpr rows bytes x0 y0 =
      (drawSprite m d bpr rows bytes x0 y0, drawCollides m d bpr rows bytes x0 y0)

/-! ### Keys and timers -/

/-- 44_keys_timers.md R220, R221; a byte above 0xF by R226 (D17; log 8), a next state with the latch
set (D11; log 1). -/
def Obligations.KeySkips : Prop :=
  ∀ (x k : Nibble) (s : State),
    ((s.getV x).toNat = k.toNat →
      exec (.skp x) s = .next { s with pc := if s.keyDown k then s.pc + 2 else s.pc } ∧
      exec (.sknp x) s = .next { s with pc := if s.keyDown k then s.pc else s.pc + 2 }) ∧
    (0xF < (s.getV x).toNat →
      exec (.skp x) s = .next { s with fault := some (.operandRange (s.getV x)) } ∧
      exec (.sknp x) s = .next { s with fault := some (.operandRange (s.getV x)) })

/-- 44_keys_timers.md R222 (D34; log 14). -/
def Obligations.KeyWaitDeliversTheLastKey : Prop :=
  ∀ (x : Nibble) (s : State),
    (0 < s.keyCount → ∃ t, exec (.ldVxK x) s = .next t ∧ (t.getV x).toNat = s.lastKey.toNat ∧
      AllVsKeptBut x s t ∧ OnlyV s t) ∧
    (s.keyCount = 0 → exec (.ldVxK x) s = .next { s with pc := s.pc - 2 })

/-- 44_keys_timers.md R223, R224, R225. -/
def Obligations.TimerAccess : Prop :=
  ∀ (x : Nibble) (s : State),
    (∃ t, exec (.ldVxDt x) s = .next t ∧ t.getV x = s.dt ∧ AllVsKeptBut x s t ∧ OnlyV s t) ∧
    exec (.ldDtVx x) s = .next { s with dt := s.getV x } ∧
    exec (.ldStVx x) s = .next { s with st := s.getV x }

/-- 45_host_operations.md R244. -/
def Obligations.TickCountsBothTimersDown : Prop :=
  ∀ s : State, s.tick.dt.toNat = s.dt.toNat - 1 ∧ s.tick.st.toNat = s.st.toNat - 1 ∧
    s.tick = { s with dt := s.tick.dt, st := s.tick.st }

/-- 45_host_operations.md R246, and R245 whose repeated PRESS sets `lastKey` by D23 (log 14); neither
writes anything but the key state (R249). -/
def Obligations.PressAndRelease : Prop :=
  ∀ (s : State) (k j : Nibble),
    (s.press k).keyDown j = (j == k || s.keyDown j) ∧ (s.press k).lastKey = k ∧
    (s.press k).keyCount = (if s.keyDown k then s.keyCount else s.keyCount + 1) ∧
    (s.press k).press k = s.press k ∧
    s.press k = { s with key := (s.press k).key, keyCount := (s.press k).keyCount,
                         lastKey := (s.press k).lastKey } ∧
    (s.release k).keyDown j = (j != k && s.keyDown j) ∧ (s.release k).lastKey = s.lastKey ∧
    (s.release k).keyCount = (if s.keyDown k then s.keyCount - 1 else s.keyCount) ∧
    (s.release k).release k = s.release k ∧
    s.release k = { s with key := (s.release k).key, keyCount := (s.release k).keyCount }

/-! ### The environment -/

/-- 45_host_operations.md R247, 10_state.md R33. -/
def Obligations.ExportIsRowMajor : Prop :=
  ∀ s : State, s.getDisplay.length = s.mode.width * s.mode.height ∧
    ∀ x < s.mode.width, ∀ y < s.mode.height,
      s.getDisplay[y * s.mode.width + x]? =
        some (if s.disp.get x y then 0xFFFFFFFF else 0x00000000)

/-- 45_host_operations.md R241, the effect of LOAD, in canonical memory. -/
def Obligations.LoadPlacesTheRom : Prop :=
  ∀ (s : State) (bytes : List Byte), s.mem.wf →
    (bytes.length ≤ 3584 → ∃ t, s.loadRom bytes = some t ∧ t = { s with mem := t.mem } ∧
      (∀ k < bytes.length, t.mem.read (0x200 + k) = bytes.getD k 0) ∧
      SameMemoryOutside 0x200 bytes.length s t) ∧
    (3584 < bytes.length → s.loadRom bytes = none)

/-- 45_host_operations.md R240: RESET with the default configuration is `State.reset` but for the
model's own counter (log 2); with any other, R, memory and nothing else differ. Where a shorter MEM_INIT
ends, memory up to 0xFFF is the default zero (00_scope.md R6, D6; log 6). -/
def Obligations.ResetOperation : Prop :=
  (∀ s : State, s.resetWith ResetConfig.default = { State.reset with draws := s.draws }) ∧
  (∀ (s : State) (c : ResetConfig), c.fontSmall.length = 80 → c.fontLarge.length = 160 →
    c.memInit.length ≤ 3856 →
    s.resetWith c = { State.reset with mem := (s.resetWith c).mem, r := c.rInit, draws := s.draws } ∧
    (∀ k < 80, (s.resetWith c).mem.read k = c.fontSmall.getD k 0) ∧
    (∀ k < 160, (s.resetWith c).mem.read (0x050 + k) = c.fontLarge.getD k 0) ∧
    (∀ k < c.memInit.length, (s.resetWith c).mem.read (0x0F0 + k) = c.memInit.getD k 0) ∧
    (∀ a, 0x0F0 + c.memInit.length ≤ a → a < 0x1000 → (s.resetWith c).mem.read a = 0))

/-- 45_host_operations.md R250, R251 (D24, D37; how they are refused is the model's choice, log 15). -/
def Obligations.EnvironmentDutiesAreEnforced : Prop :=
  ∀ (m : Session) (k : Nat) (bytes : List Byte),
    (15 < k → m.apply (.press k) = .error (.keyIndexOutOfRange k) ∧
      m.apply (.release k) = .error (.keyIndexOutOfRange k)) ∧
    (∀ m' r, m.apply .step = .ok (m', r) → m'.apply (.load bytes) = .error .loadAfterFirstStep) ∧
    (∀ m' more, m.apply (.load bytes) = .ok (m', .ok) → m'.apply (.load more) = .error .secondLoad) ∧
    (m.started = false → m.loaded = false → 3584 < bytes.length →
      ∃ m', m.apply (.load bytes) = .ok (m', .romLoadError) ∧ m'.machine = m.machine ∧
        m'.apply .step = .error .stepAfterLoadError)

/-! ### Whole-machine rules -/

/-- 10_state.md R21 to R24, R26, R27, R29, R31, R32, R34, R35, 20_memory.md R61: which instructions can
write each component, PC beyond the fetch among them; no instruction writes the key state. It rests on the
closed world of 00_scope.md R10 (D2; log 16), and CALL sets no fault by the default STACK_LIMIT (D10; log
10). -/
def Obligations.EachComponentHasItsWriters : Prop :=
  ∀ (i : Instr) (s t : State), exec i s = .next t →
    (t.key = s.key ∧ t.keyCount = s.keyCount ∧ t.lastKey = s.lastKey) ∧
    (∀ j, writesV i j = false → t.getV j = s.getV j) ∧
    (t.pc = s.pc ∨ i = .ret ∨ (∃ nnn, i = .jp nnn ∨ i = .call nnn ∨ i = .jpV0 nnn) ∨
      (∃ x kk, i = .seImm x kk ∨ i = .sneImm x kk) ∨ (∃ x y, i = .seReg x y ∨ i = .sneReg x y) ∨
      ∃ x, i = .skp x ∨ i = .sknp x ∨ i = .ldVxK x) ∧
    (t.fault = s.fault ∨ i = .ret ∨ (∃ x, i = .ldF x ∨ i = .ldHf x ∨ i = .skp x ∨ i = .sknp x) ∨
      (∃ x, i = .ldB x ∨ i = .storeV x ∨ i = .loadV x) ∨ ∃ x y n, i = .drw x y n) ∧
    (t.i = s.i ∨ (∃ nnn, i = .ldI nnn) ∨ ∃ x, i = .addI x ∨ i = .ldF x ∨ i = .ldHf x) ∧
    (t.r = s.r ∨ ∃ x, i = .saveR x) ∧
    (t.stack = s.stack ∨ i = .ret ∨ ∃ nnn, i = .call nnn) ∧
    (t.dt = s.dt ∨ ∃ x, i = .ldDtVx x) ∧
    (t.st = s.st ∨ ∃ x, i = .ldStVx x) ∧
    (t.mem = s.mem ∨ ∃ x, i = .ldB x ∨ i = .storeV x) ∧
    (t.mode = s.mode ∨ i = .low ∨ i = .high) ∧
    (t.disp = s.disp ∨ i = .cls ∨ i = .scr ∨ i = .scl ∨ i = .low ∨ i = .high ∨ (∃ n, i = .scd n) ∨
      ∃ x y n, i = .drw x y n) ∧
    (t.draws = s.draws ∨ ∃ x kk, i = .rnd x kk)
end

