-- ==== Sys2Proof/Laws/Display.lean ====
section
/-! SUPPORT. The laws of the display buffer. -/

namespace Sys2Proof.Machine

/-- Reading a cell of a buffer given by a function. -/
theorem Display.get_ofFn (m : DisplayMode) (f : Nat → Nat → Bool) (x y : Nat) :
    (Display.ofFn m f).get x y = (decide (x < m.width ∧ y < m.height) && f x y) := by
  by_cases hy : y < m.height
  · by_cases hx : x < m.width
    · simp [Display.get, Display.ofFn, List.getD, hx, hy]
    · simp [Display.get, Display.ofFn, List.getD, hx, hy]
  · simp [Display.get, Display.ofFn, List.getD, hy]

/-- The same, for a cell of the buffer. -/
theorem Display.get_ofFn_inside {m : DisplayMode} {x y : Nat} (f : Nat → Nat → Bool)
    (hx : x < m.width) (hy : y < m.height) : (Display.ofFn m f).get x y = f x y := by
  simp [Display.get_ofFn, hx, hy]

@[simp] theorem Display.get_clear (m : DisplayMode) (x y : Nat) : (Display.clear m).get x y = false := by
  simp [Display.clear, Display.get_ofFn]

/-- Every buffer that an instruction writes has the size of its mode. -/
theorem Display.ofFn_fits (m : DisplayMode) (f : Nat → Nat → Bool) : (Display.ofFn m f).fits m := by
  constructor
  · simp [Display.ofFn]
  · intro row h
    simp only [Display.ofFn, List.mem_map] at h
    obtain ⟨y, _, rfl⟩ := h
    simp

theorem Display.clear_fits (m : DisplayMode) : (Display.clear m).fits m := Display.ofFn_fits m _

/-- A buffer of the right size is given by its cells. -/
theorem Display.ofFn_get {d : Display} {m : DisplayMode} (h : d.fits m) :
    Display.ofFn m (fun x y => d.get x y) = d := by
  apply List.ext_getElem
  · simp [Display.ofFn, h.1]
  · intro y h1 h2
    simp only [Display.ofFn, List.getElem_map, List.getElem_range]
    have hr : d[y].length = m.width := h.2 _ (List.getElem_mem h2)
    apply List.ext_getElem
    · simp [hr]
    · intro x h3 h4
      simp [Display.get, List.getD, h2, h4]

/-- Two buffers of the right size with the same cells are equal data. -/
theorem Display.ext {d d' : Display} {m : DisplayMode} (h : d.fits m) (h' : d'.fits m)
    (e : ∀ x y, x < m.width → y < m.height → d.get x y = d'.get x y) : d = d' := by
  rw [← Display.ofFn_get h, ← Display.ofFn_get h']
  simp only [Display.ofFn]
  apply List.map_congr_left
  intro y hy
  apply List.map_congr_left
  intro x hx
  exact e x y (List.mem_range.1 hx) (List.mem_range.1 hy)

/-- The buffer of `State.reset` is the clear buffer of the legacy mode (10_state.md R39). -/
theorem State.reset_disp : State.reset.disp = Display.clear .legacy := by
  simp [State.reset, Display.clear, Display.ofFn, DisplayMode.width, DisplayMode.height, List.map_const']

/-- A cell of the buffer after a draw (43_display.md R200). -/
theorem get_drawSprite {m : DisplayMode} (d : Display) (bpr rows : Nat) (bytes : List Byte)
    (x0 y0 : Nat) {x y : Nat} (hx : x < m.width) (hy : y < m.height) :
    (drawSprite m d bpr rows bytes x0 y0).get x y =
      (d.get x y ^^ spriteCovers bpr rows bytes x0 y0 x y) :=
  Display.get_ofFn_inside _ hx hy

/-- The collision, cell by cell (43_display.md R200). -/
theorem drawCollides_iff (m : DisplayMode) (d : Display) (bpr rows : Nat) (bytes : List Byte)
    (x0 y0 : Nat) :
    drawCollides m d bpr rows bytes x0 y0 = true ↔
      ∃ r < rows, ∃ c < 8 * bpr, y0 + r < m.height ∧ x0 + c < m.width ∧
        spriteBit bpr bytes c r = true ∧ d.get (x0 + c) (y0 + r) = true := by
  simp [drawCollides, and_assoc]

end Sys2Proof.Machine
end

