-- ==== Sys2Proof/Laws/Encoding.lean ====
section
/-! SUPPORT. The fields of a word made in each format, and the bits that its row fixes. -/

namespace Sys2Proof

theorem append_toNat {m n : Nat} (a : BitVec m) (b : BitVec n) :
    (a ++ b).toNat = a.toNat * 2 ^ n + b.toNat := by
  rw [BitVec.toNat_append, Nat.shiftLeft_eq, Nat.mul_comm, ← Nat.two_pow_add_eq_or_of_lt b.isLt]

theorem wordNNN_toNat (f : Nibble) (a : Addr12) : (wordNNN f a).toNat = f.toNat * 4096 + a.toNat := by
  rw [wordNNN, append_toNat]; omega

theorem wordXKK_toNat (f x : Nibble) (kk : Byte) :
    (wordXKK f x kk).toNat = f.toNat * 4096 + x.toNat * 256 + kk.toNat := by
  rw [wordXKK, append_toNat, append_toNat]; omega

theorem wordXYN_toNat (f x y n : Nibble) :
    (wordXYN f x y n).toNat = f.toNat * 4096 + x.toNat * 256 + y.toNat * 16 + n.toNat := by
  rw [wordXYN, append_toNat, append_toNat, append_toNat]; omega

theorem field_toNat (ins : Word) (lo w : Nat) :
    (ins.extractLsb' lo w).toNat = ins.toNat / 2 ^ lo % 2 ^ w := by
  simp [BitVec.extractLsb'_toNat, Nat.shiftRight_eq_div_pow]

/-! ### Fields of the formats (30_encoding.md R91, R92) -/

theorem fieldFam_NNN (f : Nibble) (a : Addr12) : fieldFam (wordNNN f a) = f := by
  have := a.isLt; have := f.isLt
  apply BitVec.eq_of_toNat_eq; rw [fieldFam, field_toNat, wordNNN_toNat]; omega

theorem fieldNnn_NNN (f : Nibble) (a : Addr12) : fieldNnn (wordNNN f a) = a := by
  have := a.isLt; have := f.isLt
  apply BitVec.eq_of_toNat_eq; rw [fieldNnn, field_toNat, wordNNN_toNat]; omega

theorem fieldFam_XKK (f x : Nibble) (kk : Byte) : fieldFam (wordXKK f x kk) = f := by
  have := kk.isLt; have := f.isLt; have := x.isLt
  apply BitVec.eq_of_toNat_eq; rw [fieldFam, field_toNat, wordXKK_toNat]; omega

theorem fieldX_XKK (f x : Nibble) (kk : Byte) : fieldX (wordXKK f x kk) = x := by
  have := kk.isLt; have := f.isLt; have := x.isLt
  apply BitVec.eq_of_toNat_eq; rw [fieldX, field_toNat, wordXKK_toNat]; omega

theorem fieldKk_XKK (f x : Nibble) (kk : Byte) : fieldKk (wordXKK f x kk) = kk := by
  have := kk.isLt; have := f.isLt; have := x.isLt
  apply BitVec.eq_of_toNat_eq; rw [fieldKk, field_toNat, wordXKK_toNat]; omega

theorem fieldFam_XYN (f x y n : Nibble) : fieldFam (wordXYN f x y n) = f := by
  have := n.isLt; have := f.isLt; have := x.isLt; have := y.isLt
  apply BitVec.eq_of_toNat_eq; rw [fieldFam, field_toNat, wordXYN_toNat]; omega

theorem fieldX_XYN (f x y n : Nibble) : fieldX (wordXYN f x y n) = x := by
  have := n.isLt; have := f.isLt; have := x.isLt; have := y.isLt
  apply BitVec.eq_of_toNat_eq; rw [fieldX, field_toNat, wordXYN_toNat]; omega

theorem fieldY_XYN (f x y n : Nibble) : fieldY (wordXYN f x y n) = y := by
  have := n.isLt; have := f.isLt; have := x.isLt; have := y.isLt
  apply BitVec.eq_of_toNat_eq; rw [fieldY, field_toNat, wordXYN_toNat]; omega

theorem fieldN_XYN (f x y n : Nibble) : fieldN (wordXYN f x y n) = n := by
  have := n.isLt; have := f.isLt; have := x.isLt; have := y.isLt
  apply BitVec.eq_of_toNat_eq; rw [fieldN, field_toNat, wordXYN_toNat]; omega

/-! ### A word is made of its fields -/

theorem wordNNN_fields (ins : Word) : wordNNN (fieldFam ins) (fieldNnn ins) = ins := by
  have := ins.isLt
  apply BitVec.eq_of_toNat_eq
  rw [wordNNN_toNat, fieldFam, fieldNnn, field_toNat, field_toNat]; omega

theorem wordXKK_fields (ins : Word) : wordXKK (fieldFam ins) (fieldX ins) (fieldKk ins) = ins := by
  have := ins.isLt
  apply BitVec.eq_of_toNat_eq
  rw [wordXKK_toNat, fieldFam, fieldX, fieldKk, field_toNat, field_toNat, field_toNat]; omega

theorem wordXYN_fields (ins : Word) :
    wordXYN (fieldFam ins) (fieldX ins) (fieldY ins) (fieldN ins) = ins := by
  have := ins.isLt
  apply BitVec.eq_of_toNat_eq
  rw [wordXYN_toNat, fieldFam, fieldX, fieldY, fieldN, field_toNat, field_toNat, field_toNat, field_toNat]
  omega

/-- The two bytes of a word make the word again (20_memory.md R66). -/
theorem wordOfBytes_bytesOfWord (w : Word) : wordOfBytes (w.extractLsb' 8 8) (w.extractLsb' 0 8) = w := by
  have := w.isLt
  apply BitVec.eq_of_toNat_eq
  rw [wordOfBytes, append_toNat, field_toNat, field_toNat]; omega

/-! ### The bits a row fixes (30_encoding.md R92, R100) -/

theorem wordNNN_mask (f : Nibble) (a : Addr12) : wordNNN f a &&& 0xF000 = wordNNN f 0 := by
  have h : (0xF000 : Word) = 0xF#4 ++ 0x000#12 := rfl
  rw [h, wordNNN, BitVec.and_append]
  have h1 : f &&& 0xF#4 = f := BitVec.and_allOnes
  rw [h1, BitVec.and_zero]; rfl

theorem wordXKK_mask (f x : Nibble) (kk : Byte) : wordXKK f x kk &&& 0xF000 = wordXKK f 0 0 := by
  have h : (0xF000 : Word) = 0xF#4 ++ 0x0#4 ++ 0x00#8 := rfl
  rw [h, wordXKK, BitVec.and_append, BitVec.and_append]
  have h1 : f &&& 0xF#4 = f := BitVec.and_allOnes
  rw [h1, BitVec.and_zero, BitVec.and_zero]; rfl

theorem wordXKK_maskLow (f x : Nibble) (kk : Byte) : wordXKK f x kk &&& 0xF0FF = wordXKK f 0 kk := by
  have h : (0xF0FF : Word) = 0xF#4 ++ 0x0#4 ++ 0xFF#8 := rfl
  rw [h, wordXKK, BitVec.and_append, BitVec.and_append]
  have h1 : f &&& 0xF#4 = f := BitVec.and_allOnes
  have h2 : kk &&& 0xFF#8 = kk := BitVec.and_allOnes
  rw [h1, h2, BitVec.and_zero]; rfl

theorem wordXYN_mask (f x y n : Nibble) : wordXYN f x y n &&& 0xF000 = wordXYN f 0 0 0 := by
  have h : (0xF000 : Word) = 0xF#4 ++ 0x0#4 ++ 0x0#4 ++ 0x0#4 := rfl
  rw [h, wordXYN, BitVec.and_append, BitVec.and_append, BitVec.and_append]
  have h1 : f &&& 0xF#4 = f := BitVec.and_allOnes
  rw [h1, BitVec.and_zero, BitVec.and_zero, BitVec.and_zero]; rfl

theorem wordXYN_maskLow (f x y n : Nibble) : wordXYN f x y n &&& 0xF00F = wordXYN f 0 0 n := by
  have h : (0xF00F : Word) = 0xF#4 ++ 0x0#4 ++ 0x0#4 ++ 0xF#4 := rfl
  rw [h, wordXYN, BitVec.and_append, BitVec.and_append, BitVec.and_append]
  have h1 : f &&& 0xF#4 = f := BitVec.and_allOnes
  have h2 : n &&& 0xF#4 = n := BitVec.and_allOnes
  rw [h1, h2, BitVec.and_zero, BitVec.and_zero]; rfl

end Sys2Proof
end

