-- ==== Sys2Proof/Laws/Keys.lean ====
section
/-! SUPPORT. The laws of the key count. -/

namespace Sys2Proof.Machine

/-- Setting one cell of a list of flags changes the count by that cell alone. -/
theorem count_listSet (l : List Bool) (i : Nat) (h : i < l.length) (b : Bool) :
    (l.set i b).count true + (if l[i] = true then 1 else 0) = l.count true + (if b = true then 1 else 0) := by
  induction l generalizing i with
  | nil => cases h
  | cons c l ih =>
    cases i with
    | zero => cases b <;> cases c <;> simp
    | succ i =>
      have := ih i (by simpa using h)
      cases c <;> simp at this ⊢ <;> omega

/-- PRESS keeps the count equal to the number of keys down (45_host_operations.md R245). -/
theorem State.keysCounted_press {s : State} (h : s.keysCounted) (k : Nibble) : (s.press k).keysCounted := by
  have h1 := count_listSet s.key.toList k.toNat (by simpa using k.isLt) true
  have e : s.keyDown k = s.key.toList[k.toNat]'(by simpa using k.isLt) := by simp [State.keyDown]
  rw [← e, ← Vector.toList_set (h := k.isLt), ← h] at h1
  show (if s.keyDown k then s.keyCount else s.keyCount + 1) = _
  show _ = List.count true (s.key.set k.toNat true k.isLt).toList
  cases hk : s.keyDown k
  · simp only [hk, Bool.false_eq_true, if_false, if_true] at h1 ⊢; omega
  · simp only [hk, if_true] at h1 ⊢; omega

/-- RELEASE keeps the count equal to the number of keys down (45_host_operations.md R246). -/
theorem State.keysCounted_release {s : State} (h : s.keysCounted) (k : Nibble) : (s.release k).keysCounted := by
  have h1 := count_listSet s.key.toList k.toNat (by simpa using k.isLt) false
  have e : s.keyDown k = s.key.toList[k.toNat]'(by simpa using k.isLt) := by simp [State.keyDown]
  rw [← e, ← Vector.toList_set (h := k.isLt), ← h] at h1
  show (if s.keyDown k then s.keyCount - 1 else s.keyCount) = _
  show _ = List.count true (s.key.set k.toNat false k.isLt).toList
  cases hk : s.keyDown k
  · simp only [hk, Bool.false_eq_true, if_false] at h1 ⊢; omega
  · simp only [hk, Bool.false_eq_true, if_false, if_true] at h1 ⊢; omega

end Sys2Proof.Machine
end

