-- ==== Sys2Proof/Laws/Memory.lean ====
section
/-! SUPPORT. The laws of memory: a read after a write, and the canonical form, which every operation
on memory keeps. -/

namespace Sys2Proof.Machine

/-! ### The reset contents, by region (20_memory.md R68) -/

theorem Memory.unlisted_small {a : Nat} (h : a < 0x050) : Memory.unlisted a = Param.fontSmall.getD a 0 := by
  simp [Memory.unlisted, Config.fontLargeBase, Config.fontSmallBase, h]

theorem Memory.unlisted_large {j : Nat} (h : j < 160) : Memory.unlisted (0x050 + j) = Config.fontLarge j := by
  have h1 : 0x050 + j < 0x0F0 := by omega
  simp [Memory.unlisted, Config.fontLargeBase, Config.memInitBase, h1]

theorem Memory.unlisted_rest {a : Nat} (h : 0x0F0 ≤ a) : Memory.unlisted a = 0 := by
  have h1 : ¬ a < 0x050 := by omega
  have h2 : ¬ a < 0x0F0 := by omega
  simp [Memory.unlisted, Config.fontLargeBase, Config.memInitBase, Param.memInit, h1, h2]

/-! ### The canonical form, reads and writes -/

theorem Memory.wf_nil : Memory.wf [] := by simp [Memory.wf]

theorem Memory.wf_cons {c : Host.Cell} {m : Memory} :
    Memory.wf (c :: m) ↔
      (∀ d ∈ m, c.1 < d.1) ∧ (c.1 < Config.memSize ∧ c.2 ≠ Memory.unlisted c.1) ∧ Memory.wf m := by
  simp only [Memory.wf, List.map_cons, List.pairwise_cons, List.mem_map, List.mem_cons, forall_eq_or_imp,
    forall_exists_index, and_imp, forall_apply_eq_imp_iff₂]
  tauto

/-- An address below every listed one is unlisted. -/
theorem Memory.read_below {m : Memory} {a : Nat} (h : ∀ d ∈ m, a < d.1) :
    Memory.read m a = Memory.unlisted a := by
  induction m with
  | nil => rfl
  | cons c m ih =>
    have hc : a < c.1 := h c (by simp)
    simp only [Memory.read]
    rw [if_neg (by omega)]
    exact ih fun d hd => h d (by simp [hd])

/-- What `put` lists: the new address, or an address listed before. -/
theorem Memory.mem_put {m : Memory} {a : Nat} {v : Byte} {d : Host.Cell} (h : d ∈ Memory.put m a v) :
    (d = (a, v) ∧ v ≠ Memory.unlisted a) ∨ d ∈ m := by
  induction m with
  | nil =>
    simp only [Memory.put] at h
    split at h <;> simp_all
  | cons c m ih =>
    simp only [Memory.put] at h
    split at h
    · rcases List.mem_cons.1 h with rfl | h
      · simp
      · rcases ih h with h | h <;> simp [h]
    · split at h
      · split at h <;> simp_all
      · split at h
        · rcases List.mem_cons.1 h with h | h <;> simp_all
        · rcases List.mem_cons.1 h with h | h <;> simp_all

theorem Memory.wf_put {m : Memory} {a : Nat} (v : Byte) (ha : a < Config.memSize) (h : m.wf) :
    (Memory.put m a v).wf := by
  induction m with
  | nil =>
    simp only [Memory.put]
    split
    · exact Memory.wf_nil
    · next hv => exact Memory.wf_cons.2 ⟨by simp, ⟨ha, hv⟩, Memory.wf_nil⟩
  | cons c m ih =>
    obtain ⟨hlt, hc, hm⟩ := Memory.wf_cons.1 h
    simp only [Memory.put]
    split
    · next hca =>
      refine Memory.wf_cons.2 ⟨fun d hd => ?_, hc, ih hm⟩
      rcases Memory.mem_put hd with ⟨rfl, _⟩ | hd
      · exact hca
      · exact hlt d hd
    · next hca =>
      split
      · split
        · exact hm
        · exact h
      · next hv =>
        split
        · next he => exact Memory.wf_cons.2 ⟨fun d hd => he ▸ hlt d hd, ⟨ha, hv⟩, hm⟩
        · next he =>
          refine Memory.wf_cons.2 ⟨fun d hd => ?_, ⟨ha, hv⟩, h⟩
          rcases List.mem_cons.1 hd with rfl | hd
          · simp only; omega
          · have := hlt d hd
            simp only; omega

/-- A read after `put` into a canonical memory. -/
theorem Memory.read_put {m : Memory} (a b : Nat) (v : Byte) (h : m.wf) :
    Memory.read (Memory.put m a v) b = if b = a then v else Memory.read m b := by
  induction m with
  | nil =>
    simp only [Memory.put]
    by_cases hv : v = Memory.unlisted a
    · by_cases hb : b = a <;> simp [hv, hb, Memory.read]
    · by_cases hb : b = a
      · simp [hv, hb, Memory.read]
      · have : ¬ a = b := fun e => hb e.symm
        simp [hv, hb, this, Memory.read]
  | cons c m ih =>
    obtain ⟨hlt, hc, hm⟩ := Memory.wf_cons.1 h
    obtain ⟨ca, cu⟩ := c
    simp only at hlt hc
    simp only [Memory.put]
    by_cases h1 : ca < a
    · rw [if_pos h1]
      simp only [Memory.read]
      rw [ih hm]
      by_cases hb : b = a
      · have : ¬ ca = b := by omega
        simp [hb]; omega
      · simp [hb]
    · rw [if_neg h1]
      by_cases hv : v = Memory.unlisted a
      · rw [if_pos hv]
        by_cases hca : ca = a
        · rw [if_pos hca]
          subst hca
          by_cases hb : b = ca
          · subst hb
            simp [hv, Memory.read_below hlt]
          · have : ¬ ca = b := fun e => hb e.symm
            simp [hb, this, Memory.read]
        · rw [if_neg hca]
          by_cases hb : b = a
          · subst hb
            rw [if_pos rfl, hv]
            apply Memory.read_below
            intro d hd
            rcases List.mem_cons.1 hd with rfl | hd
            · simp only; omega
            · have := hlt d hd; omega
          · rw [if_neg hb]
      · rw [if_neg hv]
        by_cases hca : ca = a
        · rw [if_pos hca]
          subst hca
          by_cases hb : b = ca
          · simp [hb, Memory.read]
          · have : ¬ ca = b := fun e => hb e.symm
            simp [hb, this, Memory.read]
        · rw [if_neg hca]
          by_cases hb : b = a
          · simp [hb, Memory.read]
          · have : ¬ a = b := fun e => hb e.symm
            simp [hb, this, Memory.read]

/-- A write keeps the canonical form. -/
theorem Memory.wf_write {m : Memory} (a : Nat) (v : Byte) (h : m.wf) : (m.write a v).wf := by
  unfold Memory.write
  split
  · next ha => exact Memory.wf_put v ha h
  · exact h

/-- A read after a write (20_memory.md R63, R70). -/
theorem Memory.read_write {m : Memory} (a b : Nat) (v : Byte) (ha : a < Config.memSize) (h : m.wf) :
    (m.write a v).read b = if b = a then v else m.read b := by
  unfold Memory.write
  rw [if_pos ha]
  exact Memory.read_put a b v h

/-- A run of writes keeps the canonical form. -/
theorem Memory.wf_writeBytes {m : Memory} (a : Nat) (bs : List Byte) (h : m.wf) :
    (m.writeBytes a bs).wf := by
  induction bs generalizing m a with
  | nil => exact h
  | cons b bs ih => exact ih _ (Memory.wf_write a b h)

/-- A read after a run of writes that fits in memory. -/
theorem Memory.read_writeBytes {m : Memory} (a b : Nat) (bs : List Byte)
    (hfit : a + bs.length ≤ Config.memSize) (h : m.wf) :
    (m.writeBytes a bs).read b =
      if a ≤ b ∧ b < a + bs.length then bs.getD (b - a) 0 else m.read b := by
  induction bs generalizing m a with
  | nil =>
    have : ¬ (a ≤ b ∧ b < a + 0) := by omega
    simp only [Memory.writeBytes, List.length_nil]
    rw [if_neg this]
  | cons c bs ih =>
    simp only [List.length_cons] at hfit
    have ha : a < Config.memSize := by omega
    simp only [Memory.writeBytes, List.length_cons]
    rw [ih (a + 1) (by omega) (Memory.wf_write a c h), Memory.read_write a b c ha h]
    by_cases hb : b = a
    · have h1 : ¬ (a + 1 ≤ b ∧ b < a + 1 + bs.length) := by omega
      have h2 : a ≤ b ∧ b < a + (bs.length + 1) := by omega
      rw [if_neg h1, if_pos hb, if_pos h2, hb]
      simp
    · by_cases h3 : a + 1 ≤ b ∧ b < a + 1 + bs.length
      · have h2 : a ≤ b ∧ b < a + (bs.length + 1) := by omega
        rw [if_pos h3, if_pos h2]
        have : b - a = (b - (a + 1)) + 1 := by omega
        rw [this]
        simp
      · have h2 : ¬ (a ≤ b ∧ b < a + (bs.length + 1)) := by omega
        rw [if_neg h3, if_neg h2, if_neg hb]

/-- A run of writes leaves every byte outside it. -/
theorem Memory.read_writeBytes_outside {m : Memory} (a b : Nat) (bs : List Byte)
    (hfit : a + bs.length ≤ Config.memSize) (h : m.wf) (hb : b < a ∨ a + bs.length ≤ b) :
    (m.writeBytes a bs).read b = m.read b := by
  rw [Memory.read_writeBytes a b bs hfit h, if_neg (by omega)]

@[simp] theorem Memory.readBytes_length (m : Memory) (a len : Nat) : (m.readBytes a len).length = len := by
  simp [Memory.readBytes]

/-- Byte k of a run read upward from `a` is `mem[a + k]`. -/
theorem Memory.readBytes_getD (m : Memory) (a len k : Nat) (h : k < len) :
    (m.readBytes a len).getD k 0 = m.read (a + k) := by
  simp [Memory.readBytes, List.getD, h]

/-- Two canonical memories that read alike are equal data. -/
theorem Memory.eq_of_read {m m' : Memory} (h : m.wf) (h' : m'.wf) (e : ∀ a, m.read a = m'.read a) :
    m = m' := by
  induction m generalizing m' with
  | nil =>
    cases m' with
    | nil => rfl
    | cons c m' =>
      obtain ⟨_, hc, _⟩ := Memory.wf_cons.1 h'
      have := e c.1
      simp [Memory.read] at this
      exact absurd this.symm hc.2
  | cons c m ih =>
    obtain ⟨hlt, hc, hm⟩ := Memory.wf_cons.1 h
    cases m' with
    | nil =>
      have := e c.1
      simp [Memory.read] at this
      exact absurd this hc.2
    | cons c' m' =>
      obtain ⟨hlt', hc', hm'⟩ := Memory.wf_cons.1 h'
      obtain ⟨a, u⟩ := c
      obtain ⟨a', u'⟩ := c'
      simp only at hlt hlt' hc hc'
      have haa : a = a' := by
        rcases Nat.lt_trichotomy a a' with hl | he | hg
        · have hb := e a
          have : Memory.read ((a', u') :: m') a = Memory.unlisted a := by
            apply Memory.read_below
            intro d hd
            rcases List.mem_cons.1 hd with rfl | hd
            · exact hl
            · exact Nat.lt_trans hl (hlt' d hd)
          rw [this] at hb
          simp [Memory.read] at hb
          exact absurd hb hc.2
        · exact he
        · have hb := e a'
          have : Memory.read ((a, u) :: m) a' = Memory.unlisted a' := by
            apply Memory.read_below
            intro d hd
            rcases List.mem_cons.1 hd with rfl | hd
            · exact hg
            · exact Nat.lt_trans hg (hlt d hd)
          rw [this] at hb
          simp [Memory.read] at hb
          exact absurd hb.symm hc'.2
      subst haa
      have huu : u = u' := by
        have := e a
        simpa [Memory.read] using this
      subst huu
      have : m = m' := by
        apply ih hm hm'
        intro b
        by_cases hb : a = b
        · subst hb
          rw [Memory.read_below hlt, Memory.read_below hlt']
        · have := e b
          simpa [Memory.read, hb] using this
      rw [this]

end Sys2Proof.Machine
end

