-- ==== Sys2Proof/Laws/State.lean ====
section
/-! SUPPORT. What each named update of the state leaves of each field, and the laws of the registers. -/

namespace Sys2Proof.Machine

/-! ### `State.setV`: V[x] <- b -/

@[simp] theorem State.setV_v (s : State) (x : Nibble) (b : Byte) : (s.setV x b).v = s.v.set x.toNat b x.isLt := rfl
@[simp] theorem State.setV_i (s : State) (x : Nibble) (b : Byte) : (s.setV x b).i = s.i := rfl
@[simp] theorem State.setV_pc (s : State) (x : Nibble) (b : Byte) : (s.setV x b).pc = s.pc := rfl
@[simp] theorem State.setV_r (s : State) (x : Nibble) (b : Byte) : (s.setV x b).r = s.r := rfl
@[simp] theorem State.setV_stack (s : State) (x : Nibble) (b : Byte) : (s.setV x b).stack = s.stack := rfl
@[simp] theorem State.setV_dt (s : State) (x : Nibble) (b : Byte) : (s.setV x b).dt = s.dt := rfl
@[simp] theorem State.setV_st (s : State) (x : Nibble) (b : Byte) : (s.setV x b).st = s.st := rfl
@[simp] theorem State.setV_mem (s : State) (x : Nibble) (b : Byte) : (s.setV x b).mem = s.mem := rfl
@[simp] theorem State.setV_mode (s : State) (x : Nibble) (b : Byte) : (s.setV x b).mode = s.mode := rfl
@[simp] theorem State.setV_disp (s : State) (x : Nibble) (b : Byte) : (s.setV x b).disp = s.disp := rfl
@[simp] theorem State.setV_key (s : State) (x : Nibble) (b : Byte) : (s.setV x b).key = s.key := rfl
@[simp] theorem State.setV_keyCount (s : State) (x : Nibble) (b : Byte) : (s.setV x b).keyCount = s.keyCount := rfl
@[simp] theorem State.setV_lastKey (s : State) (x : Nibble) (b : Byte) : (s.setV x b).lastKey = s.lastKey := rfl
@[simp] theorem State.setV_fault (s : State) (x : Nibble) (b : Byte) : (s.setV x b).fault = s.fault := rfl
@[simp] theorem State.setV_draws (s : State) (x : Nibble) (b : Byte) : (s.setV x b).draws = s.draws := rfl

/-! ### `State.setFlag`: the flag write -/

@[simp] theorem State.setFlag_v (s : State) (c : Bool) : (s.setFlag c).v = s.v.set 15 (if c then 1 else 0) := by simp [State.setFlag]
@[simp] theorem State.setFlag_i (s : State) (c : Bool) : (s.setFlag c).i = s.i := by simp [State.setFlag]
@[simp] theorem State.setFlag_pc (s : State) (c : Bool) : (s.setFlag c).pc = s.pc := by simp [State.setFlag]
@[simp] theorem State.setFlag_r (s : State) (c : Bool) : (s.setFlag c).r = s.r := by simp [State.setFlag]
@[simp] theorem State.setFlag_stack (s : State) (c : Bool) : (s.setFlag c).stack = s.stack := by simp [State.setFlag]
@[simp] theorem State.setFlag_dt (s : State) (c : Bool) : (s.setFlag c).dt = s.dt := by simp [State.setFlag]
@[simp] theorem State.setFlag_st (s : State) (c : Bool) : (s.setFlag c).st = s.st := by simp [State.setFlag]
@[simp] theorem State.setFlag_mem (s : State) (c : Bool) : (s.setFlag c).mem = s.mem := by simp [State.setFlag]
@[simp] theorem State.setFlag_mode (s : State) (c : Bool) : (s.setFlag c).mode = s.mode := by simp [State.setFlag]
@[simp] theorem State.setFlag_disp (s : State) (c : Bool) : (s.setFlag c).disp = s.disp := by simp [State.setFlag]
@[simp] theorem State.setFlag_key (s : State) (c : Bool) : (s.setFlag c).key = s.key := by simp [State.setFlag]
@[simp] theorem State.setFlag_keyCount (s : State) (c : Bool) : (s.setFlag c).keyCount = s.keyCount := by simp [State.setFlag]
@[simp] theorem State.setFlag_lastKey (s : State) (c : Bool) : (s.setFlag c).lastKey = s.lastKey := by simp [State.setFlag]
@[simp] theorem State.setFlag_fault (s : State) (c : Bool) : (s.setFlag c).fault = s.fault := by simp [State.setFlag]
@[simp] theorem State.setFlag_draws (s : State) (c : Bool) : (s.setFlag c).draws = s.draws := by simp [State.setFlag]

/-! ### `State.setFirstVs`: the range load of V -/

@[simp] theorem State.setFirstVs_i (s : State) (x : Nibble) (l : List Byte) : (s.setFirstVs x l).i = s.i := by simp [State.setFirstVs]
@[simp] theorem State.setFirstVs_pc (s : State) (x : Nibble) (l : List Byte) : (s.setFirstVs x l).pc = s.pc := by simp [State.setFirstVs]
@[simp] theorem State.setFirstVs_r (s : State) (x : Nibble) (l : List Byte) : (s.setFirstVs x l).r = s.r := by simp [State.setFirstVs]
@[simp] theorem State.setFirstVs_stack (s : State) (x : Nibble) (l : List Byte) : (s.setFirstVs x l).stack = s.stack := by simp [State.setFirstVs]
@[simp] theorem State.setFirstVs_dt (s : State) (x : Nibble) (l : List Byte) : (s.setFirstVs x l).dt = s.dt := by simp [State.setFirstVs]
@[simp] theorem State.setFirstVs_st (s : State) (x : Nibble) (l : List Byte) : (s.setFirstVs x l).st = s.st := by simp [State.setFirstVs]
@[simp] theorem State.setFirstVs_mem (s : State) (x : Nibble) (l : List Byte) : (s.setFirstVs x l).mem = s.mem := by simp [State.setFirstVs]
@[simp] theorem State.setFirstVs_mode (s : State) (x : Nibble) (l : List Byte) : (s.setFirstVs x l).mode = s.mode := by simp [State.setFirstVs]
@[simp] theorem State.setFirstVs_disp (s : State) (x : Nibble) (l : List Byte) : (s.setFirstVs x l).disp = s.disp := by simp [State.setFirstVs]
@[simp] theorem State.setFirstVs_key (s : State) (x : Nibble) (l : List Byte) : (s.setFirstVs x l).key = s.key := by simp [State.setFirstVs]
@[simp] theorem State.setFirstVs_keyCount (s : State) (x : Nibble) (l : List Byte) : (s.setFirstVs x l).keyCount = s.keyCount := by simp [State.setFirstVs]
@[simp] theorem State.setFirstVs_lastKey (s : State) (x : Nibble) (l : List Byte) : (s.setFirstVs x l).lastKey = s.lastKey := by simp [State.setFirstVs]
@[simp] theorem State.setFirstVs_fault (s : State) (x : Nibble) (l : List Byte) : (s.setFirstVs x l).fault = s.fault := by simp [State.setFirstVs]
@[simp] theorem State.setFirstVs_draws (s : State) (x : Nibble) (l : List Byte) : (s.setFirstVs x l).draws = s.draws := by simp [State.setFirstVs]

/-! ### `State.advance`: the advance of PC -/

@[simp] theorem State.advance_v (s : State) : (s.advance).v = s.v := rfl
@[simp] theorem State.advance_i (s : State) : (s.advance).i = s.i := rfl
@[simp] theorem State.advance_pc (s : State) : (s.advance).pc = s.pc + 2 := rfl
@[simp] theorem State.advance_r (s : State) : (s.advance).r = s.r := rfl
@[simp] theorem State.advance_stack (s : State) : (s.advance).stack = s.stack := rfl
@[simp] theorem State.advance_dt (s : State) : (s.advance).dt = s.dt := rfl
@[simp] theorem State.advance_st (s : State) : (s.advance).st = s.st := rfl
@[simp] theorem State.advance_mem (s : State) : (s.advance).mem = s.mem := rfl
@[simp] theorem State.advance_mode (s : State) : (s.advance).mode = s.mode := rfl
@[simp] theorem State.advance_disp (s : State) : (s.advance).disp = s.disp := rfl
@[simp] theorem State.advance_key (s : State) : (s.advance).key = s.key := rfl
@[simp] theorem State.advance_keyCount (s : State) : (s.advance).keyCount = s.keyCount := rfl
@[simp] theorem State.advance_lastKey (s : State) : (s.advance).lastKey = s.lastKey := rfl
@[simp] theorem State.advance_fault (s : State) : (s.advance).fault = s.fault := rfl
@[simp] theorem State.advance_draws (s : State) : (s.advance).draws = s.draws := rfl

/-! ### `State.skipIf`: a skip -/

@[simp] theorem State.skipIf_v (s : State) (c : Bool) : (s.skipIf c).v = s.v := by cases c <;> rfl
@[simp] theorem State.skipIf_i (s : State) (c : Bool) : (s.skipIf c).i = s.i := by cases c <;> rfl
@[simp] theorem State.skipIf_pc (s : State) (c : Bool) : (s.skipIf c).pc = if c then s.pc + 2 else s.pc := by cases c <;> rfl
@[simp] theorem State.skipIf_r (s : State) (c : Bool) : (s.skipIf c).r = s.r := by cases c <;> rfl
@[simp] theorem State.skipIf_stack (s : State) (c : Bool) : (s.skipIf c).stack = s.stack := by cases c <;> rfl
@[simp] theorem State.skipIf_dt (s : State) (c : Bool) : (s.skipIf c).dt = s.dt := by cases c <;> rfl
@[simp] theorem State.skipIf_st (s : State) (c : Bool) : (s.skipIf c).st = s.st := by cases c <;> rfl
@[simp] theorem State.skipIf_mem (s : State) (c : Bool) : (s.skipIf c).mem = s.mem := by cases c <;> rfl
@[simp] theorem State.skipIf_mode (s : State) (c : Bool) : (s.skipIf c).mode = s.mode := by cases c <;> rfl
@[simp] theorem State.skipIf_disp (s : State) (c : Bool) : (s.skipIf c).disp = s.disp := by cases c <;> rfl
@[simp] theorem State.skipIf_key (s : State) (c : Bool) : (s.skipIf c).key = s.key := by cases c <;> rfl
@[simp] theorem State.skipIf_keyCount (s : State) (c : Bool) : (s.skipIf c).keyCount = s.keyCount := by cases c <;> rfl
@[simp] theorem State.skipIf_lastKey (s : State) (c : Bool) : (s.skipIf c).lastKey = s.lastKey := by cases c <;> rfl
@[simp] theorem State.skipIf_fault (s : State) (c : Bool) : (s.skipIf c).fault = s.fault := by cases c <;> rfl
@[simp] theorem State.skipIf_draws (s : State) (c : Bool) : (s.skipIf c).draws = s.draws := by cases c <;> rfl

/-! ### `drawByte`: only the counter moves -/

@[simp] theorem drawByte_fst (s : State) : (drawByte s).1 = Config.rand s.draws := rfl
@[simp] theorem drawByte_snd (s : State) : (drawByte s).2 = { s with draws := s.draws + 1 } := rfl

/-! ### Reading a V register after a write -/

theorem State.getV_congr {s t : State} (h : s.v = t.v) (x : Nibble) : s.getV x = t.getV x := by
  simp [State.getV, h]

@[simp] theorem State.getV_setV_same (s : State) (x : Nibble) (b : Byte) : (s.setV x b).getV x = b := by
  simp [State.getV, State.setV]

theorem State.getV_setV (s : State) (x j : Nibble) (b : Byte) :
    (s.setV x b).getV j = if j = x then b else s.getV j := by
  by_cases h : j = x
  · simp [h]
  · have hn : x.toNat ≠ j.toNat := fun e => h (BitVec.eq_of_toNat_eq e.symm)
    simp [State.getV, State.setV, h, hn]

theorem State.getV_setV_ne (s : State) {x j : Nibble} (b : Byte) (h : j ≠ x) :
    (s.setV x b).getV j = s.getV j := by
  simp [State.getV_setV, h]

theorem State.getV_setFlag (s : State) (c : Bool) (j : Nibble) :
    (s.setFlag c).getV j = if j = 0xF then (if c then 1 else 0) else s.getV j := by
  simp [State.setFlag, State.getV_setV]

@[simp] theorem State.getV_setFlag_flag (s : State) (c : Bool) :
    (s.setFlag c).getV 15#4 = if c then 1 else 0 := by
  simp [State.setFlag]

@[simp] theorem State.getV_advance (s : State) (j : Nibble) : s.advance.getV j = s.getV j := rfl

@[simp] theorem State.getV_skipIf (s : State) (c : Bool) (j : Nibble) :
    (s.skipIf c).getV j = s.getV j := State.getV_congr (by simp) j

/-- `V[i]` after the range load of V0..Vx (42_index_memory.md R177). -/
theorem State.getV_setFirstVs (s : State) (x j : Nibble) (l : List Byte) :
    (s.setFirstVs x l).getV j = if j.toNat ≤ x.toNat then l.getD j.toNat 0 else s.getV j := by
  simp [State.getV, State.setFirstVs]

/-- A write to V leaves everything but V. -/
theorem State.setV_eq (s : State) (x : Nibble) (b : Byte) :
    s.setV x b = { s with v := (s.setV x b).v } := rfl

theorem State.setFlag_eq (s : State) (c : Bool) :
    s.setFlag c = { s with v := (s.setFlag c).v } := rfl

/-- The run of bytes that `Fx55` stores has x + 1 bytes (42_index_memory.md R176). -/
@[simp] theorem State.firstVs_length (s : State) (x : Nibble) : (s.firstVs x).length = x.toNat + 1 := by
  have h : x.toNat < 16 := x.isLt
  simp [State.firstVs]
  omega

/-- Byte k of that run is Vk. -/
theorem State.firstVs_getD (s : State) (x j : Nibble) (h : j.toNat ≤ x.toNat) :
    (s.firstVs x).getD j.toNat 0 = s.getV j := by
  have hj : j.toNat < 16 := j.isLt
  simp [State.firstVs, State.getV, List.getD, Nat.lt_succ_of_le h, hj]

/-! ### The environment's operations: what each leaves -/

/-- TICK changes nothing but the timers (45_host_operations.md R244). -/
theorem State.tick_eq (s : State) : s.tick = { s with dt := s.tick.dt, st := s.tick.st } := rfl

/-- PRESS changes nothing but the key state (45_host_operations.md R245). -/
theorem State.press_eq (s : State) (k : Nibble) :
    s.press k = { s with key := (s.press k).key, keyCount := (s.press k).keyCount, lastKey := k } := rfl

/-- RELEASE changes nothing but the key state, and not `lastKey` (45_host_operations.md R246). -/
theorem State.release_eq (s : State) (k : Nibble) :
    s.release k = { s with key := (s.release k).key, keyCount := (s.release k).keyCount } := rfl

end Sys2Proof.Machine
end

