-- ==== Sys2Proof/Laws/Ops.lean ====
section
/-! SUPPORT. What each shared operation can do, said once. -/

namespace Sys2Proof.Machine

/-- Taking a fault sets the latch and nothing else (60_exceptions.md R266). -/
theorem raise_eq_next {f : Fault} {s t : State} : raise f s = .next t ↔ t = { s with fault := some f } := by
  simp [raise, eq_comm]

@[simp] theorem orRaise_ok {α : Type} (a : α) (s : State) (k : α → Result) :
    orRaise (.ok a) s k = k a := rfl

@[simp] theorem orRaise_error {α : Type} (f : Fault) (s : State) (k : α → Result) :
    orRaise (.error f) s k = raise f s := rfl

/-- A checked operation ends in its continuation or in its fault. -/
theorem orRaise_cases {α : Type} {e : Except Fault α} {s t : State} {k : α → Result}
    (h : orRaise e s k = .next t) :
    (∃ a, e = .ok a ∧ k a = .next t) ∨ (∃ f, e = .error f ∧ t = { s with fault := some f }) := by
  cases e with
  | ok a => exact .inl ⟨a, rfl, h⟩
  | error f => exact .inr ⟨f, rfl, raise_eq_next.1 h⟩

theorem footprint_fits {a len : Nat} (h : a + len - 1 < Config.memSize) : footprint a len = .ok () := by
  simp [footprint, h]

theorem footprint_beyond {a len : Nat} (h : Config.memSize ≤ a + len - 1) :
    footprint a len = .error (.outOfBounds (a + len - 1)) := by
  simp [footprint, Nat.not_lt.2 h]

/-- A footprint in memory is read whole (20_memory.md R69). -/
theorem State.load_fits (s : State) {a len : Nat} (h : a + len - 1 < Config.memSize) :
    s.load a len = .ok (s.mem.readBytes a len) := by
  simp [State.load, footprint_fits h]

/-- A footprint that passes the end of memory is not read at all (20_memory.md R69). -/
theorem State.load_beyond (s : State) {a len : Nat} (h : Config.memSize ≤ a + len - 1) :
    s.load a len = .error (.outOfBounds (a + len - 1)) := by
  simp [State.load, footprint_beyond h]

/-- A footprint in memory is written whole (20_memory.md R69). -/
theorem State.store_fits (s : State) {a : Nat} {bs : List Byte} (h : a + bs.length - 1 < Config.memSize) :
    s.store a bs = .ok { s with mem := s.mem.writeBytes a bs } := by
  simp [State.store, footprint_fits h]

/-- A footprint that passes the end of memory is not written at all (20_memory.md R69). -/
theorem State.store_beyond (s : State) {a : Nat} {bs : List Byte}
    (h : Config.memSize ≤ a + bs.length - 1) :
    s.store a bs = .error (.outOfBounds (a + bs.length - 1)) := by
  simp [State.store, footprint_beyond h]

/-- All that a store can do. -/
theorem State.store_cases (s : State) (a : Nat) (bs : List Byte) :
    (a + bs.length - 1 < Config.memSize ∧ s.store a bs = .ok { s with mem := s.mem.writeBytes a bs }) ∨
    (Config.memSize ≤ a + bs.length - 1 ∧ s.store a bs = .error (.outOfBounds (a + bs.length - 1))) := by
  rcases Nat.lt_or_ge (a + bs.length - 1) Config.memSize with h | h
  · exact .inl ⟨h, s.store_fits h⟩
  · exact .inr ⟨h, s.store_beyond h⟩

/-- All that a load can do. -/
theorem State.load_cases (s : State) (a len : Nat) :
    (a + len - 1 < Config.memSize ∧ s.load a len = .ok (s.mem.readBytes a len)) ∨
    (Config.memSize ≤ a + len - 1 ∧ s.load a len = .error (.outOfBounds (a + len - 1))) := by
  rcases Nat.lt_or_ge (a + len - 1) Config.memSize with h | h
  · exact .inl ⟨h, s.load_fits h⟩
  · exact .inr ⟨h, s.load_beyond h⟩

/-- All that the fetch can do (20_memory.md R65, R66). -/
theorem State.fetch_cases (s : State) :
    (s.pc.toNat ≤ 0xFFE ∧
      s.fetch = .ok (wordOfBytes (s.mem.read s.pc.toNat) (s.mem.read (s.pc.toNat + 1)))) ∨
    (s.pc.toNat = 0xFFF ∧ s.fetch = .error (.outOfBounds 0x1000)) ∨
    (0xFFF < s.pc.toNat ∧ s.fetch = .error (.outOfBounds s.pc.toNat)) := by
  rcases Nat.lt_trichotomy s.pc.toNat 0xFFF with h | h | h
  · refine .inl ⟨by omega, ?_⟩
    have h1 : s.pc.toNat < 4096 := by omega
    have h2 : s.pc.toNat + 1 < 4096 := by omega
    simp [State.fetch, State.memRead, Config.memSize, h1, h2]
  · refine .inr (.inl ⟨h, ?_⟩)
    simp [State.fetch, State.memRead, Config.memSize, h]
  · refine .inr (.inr ⟨h, ?_⟩)
    have h1 : ¬ s.pc.toNat < 4096 := by omega
    simp [State.fetch, State.memRead, Config.memSize, h1]

/-- All that a push can do (10_state.md R30). -/
theorem push_cases (limit : Option Nat) (w : Word) (s : State) :
    (limit ≠ some s.stack.length ∧ push limit w s = .ok { s with stack := s.stack ++ [w] }) ∨
    (limit = some s.stack.length ∧ push limit w s = .error .stackOverflow) := by
  by_cases h : limit = some s.stack.length
  · exact .inr ⟨h, by simp [push, h]⟩
  · exact .inl ⟨h, by simp [push, h]⟩

/-- All that a pop can do (10_state.md R30). -/
theorem pop_cases (s : State) :
    (s.stack = [] ∧ pop s = .error .stackUnderflow) ∨
    (∃ l t, s.stack = l ++ [t] ∧ pop s = .ok (t, { s with stack := l })) := by
  rcases List.eq_nil_or_concat s.stack with h | ⟨l, t, h⟩
  · exact .inl ⟨h, by simp [pop, h]⟩
  · rw [List.concat_eq_append] at h
    exact .inr ⟨l, t, h, by simp [pop, h]⟩

/-- A digit, or its fault, under the default policy (42_index_memory.md R174). -/
theorem digitOf_cases (b : Byte) :
    (b.toNat ≤ 0xF ∧ digitOf Param.operandRange b = .ok b.toNat) ∨
    (0xF < b.toNat ∧ digitOf Param.operandRange b = .error (.operandRange b)) := by
  rcases Nat.lt_or_ge 0xF b.toNat with h | h
  · exact .inr ⟨h, by simp [digitOf, Param.operandRange, Nat.not_le.2 h]⟩
  · exact .inl ⟨h, by simp [digitOf, Param.operandRange, h]⟩

/-- A key index, or its fault, under the default policy (44_keys_timers.md R226). -/
theorem keyOf_cases (b : Byte) :
    (b.toNat ≤ 0xF ∧ keyOf Param.operandRange b = .ok (b.setWidth 4)) ∨
    (0xF < b.toNat ∧ keyOf Param.operandRange b = .error (.operandRange b)) := by
  rcases Nat.lt_or_ge 0xF b.toNat with h | h
  · exact .inr ⟨h, by simp [keyOf, Param.operandRange, Nat.not_le.2 h]⟩
  · exact .inl ⟨h, by simp [keyOf, Param.operandRange, h]⟩

/-- The shifted operand under the default SHIFT_SOURCE (41_alu.md R142). -/
@[simp] theorem shiftOperand_default (x y : Nibble) (s : State) :
    shiftOperand Param.shiftSource x y s = s.getV x := rfl

/-- LOAD of a ROM that fits (45_host_operations.md R241). -/
theorem State.loadRom_fits (s : State) {bytes : List Byte} (h : bytes.length ≤ 3584) :
    s.loadRom bytes = some { s with mem := s.mem.writeBytes 0x200 bytes } := by
  have h1 : bytes.length ≤ Config.romMax := h
  rw [State.loadRom, if_pos h1]; rfl

/-- LOAD of a ROM that does not fit (45_host_operations.md R241). -/
theorem State.loadRom_large (s : State) {bytes : List Byte} (h : 3584 < bytes.length) :
    s.loadRom bytes = none := by
  have h1 : ¬ bytes.length ≤ Config.romMax := Nat.not_le.2 h
  rw [State.loadRom, if_neg h1]

/-! ### The alternatives that the parameters offer and the defaults do not take -/

theorem digitOf_mask (b : Byte) : digitOf .mask b = .ok (b.toNat % 16) := rfl
theorem digitOf_multiply (b : Byte) : digitOf .multiply b = .ok b.toNat := rfl
theorem keyOf_mask (b : Byte) : keyOf .mask b = .ok (b.setWidth 4) := rfl
theorem shiftOperand_vy (x y : Nibble) (s : State) : shiftOperand .vy x y s = s.getV y := rfl
theorem decodeLowNibble_lax (n : Nibble) (i : Instr) : decodeLowNibble false n i = .ok i := rfl

@[simp] theorem bcdDigits_length (b : Byte) : (bcdDigits b).length = 3 := rfl

end Sys2Proof.Machine
end

