-- ==== Sys2Proof/Laws/PerInstr.lean ====
section
/-! SUPPORT. Statements about every instruction as a term, one lemma per constructor. -/

/-! ### RowMatch: the word of an instruction has the fixed bits of its row (30_encoding.md R100) -/

namespace Sys2Proof.Laws.RowMatch

/-- `encode i & mask == match` for the row of `i`. -/
def Statement (i : Instr) : Prop := encode i &&& i.row.1 = i.row.2

theorem cls : Statement .cls := rfl
theorem scd (n : Nibble) : Statement (.scd n) := by revert n; unfold Statement; decide
theorem ret : Statement .ret := rfl
theorem scr : Statement .scr := rfl
theorem scl : Statement .scl := rfl
theorem low : Statement .low := rfl
theorem high : Statement .high := rfl
theorem sys (nnn : Addr12) : Statement (.sys nnn) := wordNNN_mask 0x0 nnn
theorem jp (nnn : Addr12) : Statement (.jp nnn) := wordNNN_mask 0x1 nnn
theorem call (nnn : Addr12) : Statement (.call nnn) := wordNNN_mask 0x2 nnn
theorem seImm (x : Nibble) (kk : Byte) : Statement (.seImm x kk) := wordXKK_mask 0x3 x kk
theorem sneImm (x : Nibble) (kk : Byte) : Statement (.sneImm x kk) := wordXKK_mask 0x4 x kk
theorem seReg (x : Nibble) (y : Nibble) : Statement (.seReg x y) := wordXYN_maskLow 0x5 x y 0x0
theorem ldImm (x : Nibble) (kk : Byte) : Statement (.ldImm x kk) := wordXKK_mask 0x6 x kk
theorem addImm (x : Nibble) (kk : Byte) : Statement (.addImm x kk) := wordXKK_mask 0x7 x kk
theorem ldReg (x : Nibble) (y : Nibble) : Statement (.ldReg x y) := wordXYN_maskLow 0x8 x y 0x0
theorem orReg (x : Nibble) (y : Nibble) : Statement (.orReg x y) := wordXYN_maskLow 0x8 x y 0x1
theorem andReg (x : Nibble) (y : Nibble) : Statement (.andReg x y) := wordXYN_maskLow 0x8 x y 0x2
theorem xorReg (x : Nibble) (y : Nibble) : Statement (.xorReg x y) := wordXYN_maskLow 0x8 x y 0x3
theorem addReg (x : Nibble) (y : Nibble) : Statement (.addReg x y) := wordXYN_maskLow 0x8 x y 0x4
theorem subReg (x : Nibble) (y : Nibble) : Statement (.subReg x y) := wordXYN_maskLow 0x8 x y 0x5
theorem shr (x : Nibble) (y : Nibble) : Statement (.shr x y) := wordXYN_maskLow 0x8 x y 0x6
theorem subnReg (x : Nibble) (y : Nibble) : Statement (.subnReg x y) := wordXYN_maskLow 0x8 x y 0x7
theorem shl (x : Nibble) (y : Nibble) : Statement (.shl x y) := wordXYN_maskLow 0x8 x y 0xE
theorem sneReg (x : Nibble) (y : Nibble) : Statement (.sneReg x y) := wordXYN_maskLow 0x9 x y 0x0
theorem ldI (nnn : Addr12) : Statement (.ldI nnn) := wordNNN_mask 0xA nnn
theorem jpV0 (nnn : Addr12) : Statement (.jpV0 nnn) := wordNNN_mask 0xB nnn
theorem rnd (x : Nibble) (kk : Byte) : Statement (.rnd x kk) := wordXKK_mask 0xC x kk
theorem drw (x : Nibble) (y : Nibble) (n : Nibble) : Statement (.drw x y n) := wordXYN_mask 0xD x y n
theorem skp (x : Nibble) : Statement (.skp x) := wordXKK_maskLow 0xE x 0x9E
theorem sknp (x : Nibble) : Statement (.sknp x) := wordXKK_maskLow 0xE x 0xA1
theorem ldVxDt (x : Nibble) : Statement (.ldVxDt x) := wordXKK_maskLow 0xF x 0x07
theorem ldVxK (x : Nibble) : Statement (.ldVxK x) := wordXKK_maskLow 0xF x 0x0A
theorem ldDtVx (x : Nibble) : Statement (.ldDtVx x) := wordXKK_maskLow 0xF x 0x15
theorem ldStVx (x : Nibble) : Statement (.ldStVx x) := wordXKK_maskLow 0xF x 0x18
theorem addI (x : Nibble) : Statement (.addI x) := wordXKK_maskLow 0xF x 0x1E
theorem ldF (x : Nibble) : Statement (.ldF x) := wordXKK_maskLow 0xF x 0x29
theorem ldHf (x : Nibble) : Statement (.ldHf x) := wordXKK_maskLow 0xF x 0x30
theorem ldB (x : Nibble) : Statement (.ldB x) := wordXKK_maskLow 0xF x 0x33
theorem storeV (x : Nibble) : Statement (.storeV x) := wordXKK_maskLow 0xF x 0x55
theorem loadV (x : Nibble) : Statement (.loadV x) := wordXKK_maskLow 0xF x 0x65
theorem saveR (x : Nibble) : Statement (.saveR x) := wordXKK_maskLow 0xF x 0x75
theorem restoreR (x : Nibble) : Statement (.restoreR x) := wordXKK_maskLow 0xF x 0x85

end Sys2Proof.Laws.RowMatch

/-! ### RoundTrip: decode reads back the word of a well-formed instruction, every operand whole -/

namespace Sys2Proof.Laws.RoundTrip

/-- Decoding the encoding of a well-formed instruction gives it back (30_encoding.md R94, R100). -/
def Statement (i : Instr) : Prop := i.wf = true → decodeWord (encode i) = .ok i

theorem cls : Statement .cls := fun _ => rfl
theorem scd (n : Nibble) : Statement (.scd n) := by revert n; unfold Statement; decide
theorem ret : Statement .ret := fun _ => rfl
theorem scr : Statement .scr := fun _ => rfl
theorem scl : Statement .scl := fun _ => rfl
theorem low : Statement .low := fun _ => rfl
theorem high : Statement .high := fun _ => rfl
theorem sys (nnn : Addr12) : Statement (.sys nnn) := by
  intro h
  simp only [Instr.wf, recognisedFamily0, Bool.not_eq_true', Bool.or_eq_false_iff, beq_eq_false_iff_ne] at h
  obtain ⟨⟨⟨⟨⟨⟨h1, h2⟩, h3⟩, h4⟩, h5⟩, h6⟩, h7⟩ := h
  simp only [encode, decodeWord, fieldFam_NNN, fieldNnn_NNN, decodeFamily0]
  rw [if_neg h1, if_neg h2, if_neg h3, if_neg h4, if_neg h5, if_neg h6, if_neg h7]
  rfl
theorem jp (nnn : Addr12) : Statement (.jp nnn) := fun _ => by
  simp [encode, decodeWord, fieldFam_NNN, fieldNnn_NNN]
theorem call (nnn : Addr12) : Statement (.call nnn) := fun _ => by
  simp [encode, decodeWord, fieldFam_NNN, fieldNnn_NNN]
theorem seImm (x : Nibble) (kk : Byte) : Statement (.seImm x kk) := fun _ => by
  simp [encode, decodeWord, fieldFam_XKK, fieldX_XKK, fieldKk_XKK]
theorem sneImm (x : Nibble) (kk : Byte) : Statement (.sneImm x kk) := fun _ => by
  simp [encode, decodeWord, fieldFam_XKK, fieldX_XKK, fieldKk_XKK]
theorem seReg (x : Nibble) (y : Nibble) : Statement (.seReg x y) := fun _ => by
  simp [encode, decodeWord, fieldFam_XYN, fieldX_XYN, fieldY_XYN, fieldN_XYN, decodeLowNibble]
theorem ldImm (x : Nibble) (kk : Byte) : Statement (.ldImm x kk) := fun _ => by
  simp [encode, decodeWord, fieldFam_XKK, fieldX_XKK, fieldKk_XKK]
theorem addImm (x : Nibble) (kk : Byte) : Statement (.addImm x kk) := fun _ => by
  simp [encode, decodeWord, fieldFam_XKK, fieldX_XKK, fieldKk_XKK]
theorem ldReg (x : Nibble) (y : Nibble) : Statement (.ldReg x y) := fun _ => by
  simp [encode, decodeWord, fieldFam_XYN, fieldX_XYN, fieldY_XYN, fieldN_XYN, decodeFamily8]
theorem orReg (x : Nibble) (y : Nibble) : Statement (.orReg x y) := fun _ => by
  simp [encode, decodeWord, fieldFam_XYN, fieldX_XYN, fieldY_XYN, fieldN_XYN, decodeFamily8]
theorem andReg (x : Nibble) (y : Nibble) : Statement (.andReg x y) := fun _ => by
  simp [encode, decodeWord, fieldFam_XYN, fieldX_XYN, fieldY_XYN, fieldN_XYN, decodeFamily8]
theorem xorReg (x : Nibble) (y : Nibble) : Statement (.xorReg x y) := fun _ => by
  simp [encode, decodeWord, fieldFam_XYN, fieldX_XYN, fieldY_XYN, fieldN_XYN, decodeFamily8]
theorem addReg (x : Nibble) (y : Nibble) : Statement (.addReg x y) := fun _ => by
  simp [encode, decodeWord, fieldFam_XYN, fieldX_XYN, fieldY_XYN, fieldN_XYN, decodeFamily8]
theorem subReg (x : Nibble) (y : Nibble) : Statement (.subReg x y) := fun _ => by
  simp [encode, decodeWord, fieldFam_XYN, fieldX_XYN, fieldY_XYN, fieldN_XYN, decodeFamily8]
theorem shr (x : Nibble) (y : Nibble) : Statement (.shr x y) := fun _ => by
  simp [encode, decodeWord, fieldFam_XYN, fieldX_XYN, fieldY_XYN, fieldN_XYN, decodeFamily8]
theorem subnReg (x : Nibble) (y : Nibble) : Statement (.subnReg x y) := fun _ => by
  simp [encode, decodeWord, fieldFam_XYN, fieldX_XYN, fieldY_XYN, fieldN_XYN, decodeFamily8]
theorem shl (x : Nibble) (y : Nibble) : Statement (.shl x y) := fun _ => by
  simp [encode, decodeWord, fieldFam_XYN, fieldX_XYN, fieldY_XYN, fieldN_XYN, decodeFamily8]
theorem sneReg (x : Nibble) (y : Nibble) : Statement (.sneReg x y) := fun _ => by
  simp [encode, decodeWord, fieldFam_XYN, fieldX_XYN, fieldY_XYN, fieldN_XYN, decodeLowNibble]
theorem ldI (nnn : Addr12) : Statement (.ldI nnn) := fun _ => by
  simp [encode, decodeWord, fieldFam_NNN, fieldNnn_NNN]
theorem jpV0 (nnn : Addr12) : Statement (.jpV0 nnn) := fun _ => by
  simp [encode, decodeWord, fieldFam_NNN, fieldNnn_NNN]
theorem rnd (x : Nibble) (kk : Byte) : Statement (.rnd x kk) := fun _ => by
  simp [encode, decodeWord, fieldFam_XKK, fieldX_XKK, fieldKk_XKK]
theorem drw (x : Nibble) (y : Nibble) (n : Nibble) : Statement (.drw x y n) := fun _ => by
  simp [encode, decodeWord, fieldFam_XYN, fieldX_XYN, fieldY_XYN, fieldN_XYN]
theorem skp (x : Nibble) : Statement (.skp x) := fun _ => by
  simp [encode, decodeWord, fieldFam_XKK, fieldX_XKK, fieldKk_XKK, decodeFamilyE]
theorem sknp (x : Nibble) : Statement (.sknp x) := fun _ => by
  simp [encode, decodeWord, fieldFam_XKK, fieldX_XKK, fieldKk_XKK, decodeFamilyE]
theorem ldVxDt (x : Nibble) : Statement (.ldVxDt x) := fun _ => by
  simp [encode, decodeWord, fieldFam_XKK, fieldX_XKK, fieldKk_XKK, decodeFamilyF]
theorem ldVxK (x : Nibble) : Statement (.ldVxK x) := fun _ => by
  simp [encode, decodeWord, fieldFam_XKK, fieldX_XKK, fieldKk_XKK, decodeFamilyF]
theorem ldDtVx (x : Nibble) : Statement (.ldDtVx x) := fun _ => by
  simp [encode, decodeWord, fieldFam_XKK, fieldX_XKK, fieldKk_XKK, decodeFamilyF]
theorem ldStVx (x : Nibble) : Statement (.ldStVx x) := fun _ => by
  simp [encode, decodeWord, fieldFam_XKK, fieldX_XKK, fieldKk_XKK, decodeFamilyF]
theorem addI (x : Nibble) : Statement (.addI x) := fun _ => by
  simp [encode, decodeWord, fieldFam_XKK, fieldX_XKK, fieldKk_XKK, decodeFamilyF]
theorem ldF (x : Nibble) : Statement (.ldF x) := fun _ => by
  simp [encode, decodeWord, fieldFam_XKK, fieldX_XKK, fieldKk_XKK, decodeFamilyF]
theorem ldHf (x : Nibble) : Statement (.ldHf x) := fun _ => by
  simp [encode, decodeWord, fieldFam_XKK, fieldX_XKK, fieldKk_XKK, decodeFamilyF]
theorem ldB (x : Nibble) : Statement (.ldB x) := fun _ => by
  simp [encode, decodeWord, fieldFam_XKK, fieldX_XKK, fieldKk_XKK, decodeFamilyF]
theorem storeV (x : Nibble) : Statement (.storeV x) := fun _ => by
  simp [encode, decodeWord, fieldFam_XKK, fieldX_XKK, fieldKk_XKK, decodeFamilyF]
theorem loadV (x : Nibble) : Statement (.loadV x) := fun _ => by
  simp [encode, decodeWord, fieldFam_XKK, fieldX_XKK, fieldKk_XKK, decodeFamilyF]
theorem saveR (x : Nibble) : Statement (.saveR x) := fun _ => by
  simp [encode, decodeWord, fieldFam_XKK, fieldX_XKK, fieldKk_XKK, decodeFamilyF]
theorem restoreR (x : Nibble) : Statement (.restoreR x) := fun _ => by
  simp [encode, decodeWord, fieldFam_XKK, fieldX_XKK, fieldKk_XKK, decodeFamilyF]

end Sys2Proof.Laws.RoundTrip
end

