-- ==== Sys2Proof/Laws/Step.lean ====
section
/-! SUPPORT. What a STEP can do, said once. -/

namespace Sys2Proof.Machine

/-- All that a STEP that answers a next state can do (45_host_operations.md R242): the latch was empty,
and it ran an instruction, met an unrecognised word, or fetched beyond memory. -/
theorem step_cases {s t : State} (h : step s = .next t) :
    s.fault = none ∧
    ((s.pc.toNat ≤ 0xFFE ∧ ∃ i, decodeWord s.wordAtPc = .ok i ∧ exec i s.advance = .next t) ∨
     (s.pc.toNat ≤ 0xFFE ∧ (∃ e, decodeWord s.wordAtPc = .error e) ∧
        t = { s.advance with fault := some (.decodeError s.wordAtPc) }) ∨
     (0xFFE < s.pc.toNat ∧ ∃ a, 0xFFF < a ∧ t = { s with fault := some (.outOfBounds a) })) := by
  unfold step at h
  cases hf : s.fault with
  | some f => rw [hf] at h; cases h
  | none =>
    rw [hf] at h
    refine ⟨rfl, ?_⟩
    rcases s.fetch_cases with ⟨hpc, he⟩ | ⟨hpc, he⟩ | ⟨hpc, he⟩
    · rw [he] at h
      simp only [orRaise_ok, runFetched] at h
      cases hd : decodeWord s.wordAtPc with
      | ok i =>
        rw [State.wordAtPc] at hd
        rw [hd] at h
        exact .inl ⟨hpc, i, rfl, h⟩
      | error e =>
        have hd' := hd
        rw [State.wordAtPc] at hd'
        rw [hd'] at h
        exact .inr (.inl ⟨hpc, ⟨e, rfl⟩, raise_eq_next.1 h⟩)
    · rw [he, orRaise_error] at h
      exact .inr (.inr ⟨by omega, 0x1000, by omega, raise_eq_next.1 h⟩)
    · rw [he, orRaise_error] at h
      exact .inr (.inr ⟨by omega, _, hpc, raise_eq_next.1 h⟩)

/-- A run goes on from the next state of a STEP. -/
theorem run_next {s t : State} (h : step s = .next t) (k : Nat) :
    Sys2Proof.core.run (k + 1) s = Sys2Proof.core.run k t := by
  simp only [Host.Core.run]
  rw [show Sys2Proof.core.step s = .next t from h]

end Sys2Proof.Machine
end

