-- ==== Sys2Proof/Tests/Slice0.lean ====
section
/-! SUPPORT. The model's own tests. Expected results are from 30_encoding.md R100 and the vectors of
95_test_vectors.md, named in each test's comment. -/

namespace Sys2Proof.Tests

open Sys2Proof.Machine

/-! ### Well-formedness: one ill-formed term for its one check, and a well-formed one -/

theorem test_wf_refuses_sys_of_another_row : (Instr.sys 0x0E0).wf = false := by decide
theorem test_wf_refuses_sys_of_scroll : (Instr.sys 0x0CF).wf = false := by decide
theorem test_wf_accepts_sys : (Instr.sys 0x1E0).wf = true := by decide

/-! ### Decode: one word of every row, written from its pattern -/

theorem test_decode_cls : decodeWord 0x00E0 = .ok .cls := by decide
theorem test_decode_scd : decodeWord 0x00C7 = .ok (.scd 7) := by decide
theorem test_decode_ret : decodeWord 0x00EE = .ok .ret := by decide
theorem test_decode_scr : decodeWord 0x00FB = .ok .scr := by decide
theorem test_decode_scl : decodeWord 0x00FC = .ok .scl := by decide
theorem test_decode_low : decodeWord 0x00FE = .ok .low := by decide
theorem test_decode_high : decodeWord 0x00FF = .ok .high := by decide
theorem test_decode_sys : decodeWord 0x01E0 = .ok (.sys 0x1E0) := by decide
theorem test_decode_jp : decodeWord 0x1ABC = .ok (.jp 0xABC) := by decide
theorem test_decode_call : decodeWord 0x2DEF = .ok (.call 0xDEF) := by decide
theorem test_decode_seImm : decodeWord 0x3142 = .ok (.seImm 1 0x42) := by decide
theorem test_decode_sneImm : decodeWord 0x4342 = .ok (.sneImm 3 0x42) := by decide
theorem test_decode_seReg : decodeWord 0x5120 = .ok (.seReg 1 2) := by decide
theorem test_decode_ldImm : decodeWord 0x6AFF = .ok (.ldImm 0xA 0xFF) := by decide
theorem test_decode_addImm : decodeWord 0x7102 = .ok (.addImm 1 2) := by decide
theorem test_decode_ldReg : decodeWord 0x8120 = .ok (.ldReg 1 2) := by decide
theorem test_decode_orReg : decodeWord 0x8121 = .ok (.orReg 1 2) := by decide
theorem test_decode_andReg : decodeWord 0x8122 = .ok (.andReg 1 2) := by decide
theorem test_decode_xorReg : decodeWord 0x8123 = .ok (.xorReg 1 2) := by decide
theorem test_decode_addReg : decodeWord 0x8124 = .ok (.addReg 1 2) := by decide
theorem test_decode_subReg : decodeWord 0x8125 = .ok (.subReg 1 2) := by decide
theorem test_decode_shr : decodeWord 0x8126 = .ok (.shr 1 2) := by decide
theorem test_decode_subnReg : decodeWord 0x8127 = .ok (.subnReg 1 2) := by decide
theorem test_decode_shl : decodeWord 0x812E = .ok (.shl 1 2) := by decide
theorem test_decode_sneReg : decodeWord 0x9120 = .ok (.sneReg 1 2) := by decide
theorem test_decode_ldI : decodeWord 0xA123 = .ok (.ldI 0x123) := by decide
theorem test_decode_jpV0 : decodeWord 0xB300 = .ok (.jpV0 0x300) := by decide
theorem test_decode_rnd : decodeWord 0xC10F = .ok (.rnd 1 0x0F) := by decide
theorem test_decode_drw : decodeWord 0xD125 = .ok (.drw 1 2 5) := by decide
theorem test_decode_skp : decodeWord 0xE49E = .ok (.skp 4) := by decide
theorem test_decode_sknp : decodeWord 0xE4A1 = .ok (.sknp 4) := by decide
theorem test_decode_ldVxDt : decodeWord 0xF107 = .ok (.ldVxDt 1) := by decide
theorem test_decode_ldVxK : decodeWord 0xF30A = .ok (.ldVxK 3) := by decide
theorem test_decode_ldDtVx : decodeWord 0xF115 = .ok (.ldDtVx 1) := by decide
theorem test_decode_ldStVx : decodeWord 0xF118 = .ok (.ldStVx 1) := by decide
theorem test_decode_addI : decodeWord 0xF21E = .ok (.addI 2) := by decide
theorem test_decode_ldF : decodeWord 0xF329 = .ok (.ldF 3) := by decide
theorem test_decode_ldHf : decodeWord 0xF330 = .ok (.ldHf 3) := by decide
theorem test_decode_ldB : decodeWord 0xFA33 = .ok (.ldB 0xA) := by decide
theorem test_decode_storeV : decodeWord 0xF255 = .ok (.storeV 2) := by decide
theorem test_decode_loadV : decodeWord 0xF265 = .ok (.loadV 2) := by decide
theorem test_decode_saveR : decodeWord 0xF375 = .ok (.saveR 3) := by decide
theorem test_decode_restoreR : decodeWord 0xF585 = .ok (.restoreR 5) := by decide

/-! ### Decode rejects by name (T18, T21, T62, T145, T157) -/

theorem test_reject_lowNibble5 : decodeWord 0x5121 = .error .lowNibbleNotZero := by decide
theorem test_reject_lowNibble9 : decodeWord 0x912F = .error .lowNibbleNotZero := by decide
theorem test_reject_family8 : decodeWord 0x8128 = .error .unknownFamily8 := by decide
theorem test_reject_familyE : decodeWord 0xE49F = .error .unknownFamilyE := by decide
theorem test_reject_familyF : decodeWord 0xF000 = .error .unknownFamilyF := by decide
theorem test_reject_truncated : decodeBytes [0x00] = .error .truncated := by decide
theorem test_decode_bytes_big_endian :
    decodeBytes [0x60, 0x05, 0x70, 0x03] = .ok (.ldImm 0 5, [0x70, 0x03]) := by decide
theorem test_table_word : decodeTableWord 16 0xA200 = some (.ldI 0x200) := by decide

/-! ### One step of one word -/

/-- What `f` sees of the state after one step of the word `w`, placed where `s` fetches. -/
def seen {α : Type} (w : Nat) (s : State) (f : State → α) : Option α :=
  match step (s.withFetchWord 16 w) with
  | .next t => some (f t)
  | _ => none

/-- The reset state with some V registers set. -/
def withVs (l : List (Nibble × Byte)) : State := l.foldl (fun s p => s.setV p.1 p.2) State.reset

/-- The state `s` with the cell (x, y) lit. -/
def lit (s : State) (x y : Nat) : State := { s with disp := s.disp.setCell s.mode x y true }

/-- The bytes `l` at 0x300, and I there. -/
def sprite (s : State) (l : List Byte) : State := { s with i := 0x300, mem := s.mem.writeBytes 0x300 l }

/-- T2 -/
theorem test_sys_only_pc :
    seen 0x0123 State.reset (fun t => (t.pc, t.fault)) = some (0x202, none) := by decide
/-- T4 -/
theorem test_ret :
    seen 0x00EE ({ State.reset with stack := [0x204, 0x206] } : State) (fun t => (t.pc, t.stack)) = some (0x206, [0x204]) := by decide
/-- T5 -/
theorem test_ret_underflow :
    seen 0x00EE State.reset (fun t => (t.pc, t.fault)) = some (0x202, some .stackUnderflow) := by decide
/-- T6 -/
theorem test_jp :
    seen 0x1ABC State.reset (fun t => t.pc) = some 0xABC := by decide
/-- T10 -/
theorem test_call :
    seen 0x2DEF ({ State.reset with stack := [0x202], pc := 0xABC } : State) (fun t => (t.pc, t.stack)) = some (0xDEF, [0x202, 0xABE]) := by decide
/-- T11 -/
theorem test_seImm_skips :
    seen 0x3342 (withVs [(3, 0x42)]) (fun t => t.pc) = some 0x204 := by decide
/-- T12 -/
theorem test_seImm_stays :
    seen 0x3343 (withVs [(3, 0x42)]) (fun t => t.pc) = some 0x202 := by decide
/-- T13 -/
theorem test_sneImm_stays :
    seen 0x4342 (withVs [(3, 0x42)]) (fun t => t.pc) = some 0x202 := by decide
/-- T14 -/
theorem test_sneImm_skips :
    seen 0x4343 (withVs [(3, 0x42)]) (fun t => t.pc) = some 0x204 := by decide
/-- T15 -/
theorem test_seReg_skips :
    seen 0x5120 (withVs [(1, 9), (2, 9)]) (fun t => t.pc) = some 0x204 := by decide
/-- T16 -/
theorem test_seReg_stays :
    seen 0x5120 (withVs [(1, 9), (2, 8)]) (fun t => t.pc) = some 0x202 := by decide
/-- T19 -/
theorem test_sneReg_skips :
    seen 0x9120 (withVs [(1, 9), (2, 8)]) (fun t => t.pc) = some 0x204 := by decide
/-- T20 -/
theorem test_sneReg_stays :
    seen 0x9120 (withVs [(1, 9), (2, 9)]) (fun t => t.pc) = some 0x202 := by decide
/-- T24 -/
theorem test_jpV0 :
    seen 0xB300 (withVs [(0, 0x10), (3, 0x80)]) (fun t => t.pc) = some 0x310 := by decide
/-- T23 -/
theorem test_jpV0_beyond :
    seen 0xBFFF (withVs [(0, 0xFF)]) (fun t => (t.pc, t.fault)) = some (0x10FE, none) := by decide
/-- T30 -/
theorem test_ldImm :
    seen 0x6AFF State.reset (fun t => t.getV 0xA) = some 0xFF := by decide
/-- T32 -/
theorem test_addImm_no_flag :
    seen 0x7102 (withVs [(1, 0xFF)]) (fun t => (t.getV 1, t.getV 0xF)) = some (0x01, 0) := by decide
/-- T34 -/
theorem test_addImm_vf :
    seen 0x7FFF (withVs [(0xF, 1)]) (fun t => t.getV 0xF) = some 0 := by decide
/-- T35 -/
theorem test_ldReg :
    seen 0x8120 (withVs [(2, 0x3C)]) (fun t => (t.getV 1, t.getV 2)) = some (0x3C, 0x3C) := by decide
/-- T36 -/
theorem test_orReg :
    seen 0x8121 (withVs [(1, 0xF0), (2, 0x0F), (0xF, 1)]) (fun t => (t.getV 1, t.getV 0xF)) = some (0xFF, 1) := by decide
/-- T37 -/
theorem test_andReg :
    seen 0x8122 (withVs [(1, 0xF3), (2, 0x3F), (0xF, 1)]) (fun t => (t.getV 1, t.getV 0xF)) = some (0x33, 1) := by decide
/-- T38 -/
theorem test_xorReg :
    seen 0x8123 (withVs [(1, 0xFF), (2, 0x0F), (0xF, 1)]) (fun t => (t.getV 1, t.getV 0xF)) = some (0xF0, 1) := by decide
/-- T40 -/
theorem test_addReg_carry :
    seen 0x8124 (withVs [(1, 0xC8), (2, 0x64)]) (fun t => (t.getV 1, t.getV 0xF)) = some (0x2C, 1) := by decide
/-- T46 -/
theorem test_addReg_old_vf :
    seen 0x81F4 (withVs [(1, 0x10), (0xF, 5)]) (fun t => (t.getV 1, t.getV 0xF)) = some (0x15, 0) := by decide
/-- T47 -/
theorem test_subReg_borrow :
    seen 0x8125 (withVs [(1, 5), (2, 7)]) (fun t => (t.getV 1, t.getV 0xF)) = some (0xFE, 0) := by decide
/-- T49 -/
theorem test_subReg_equal :
    seen 0x8125 (withVs [(1, 7), (2, 7)]) (fun t => (t.getV 1, t.getV 0xF)) = some (0, 1) := by decide
/-- T52 -/
theorem test_shr_ignores_y :
    seen 0x8126 (withVs [(1, 4), (2, 0xFF)]) (fun t => (t.getV 1, t.getV 2, t.getV 0xF)) = some (2, 0xFF, 0) := by decide
/-- T54 -/
theorem test_shr_vf :
    seen 0x8F06 (withVs [(0xF, 3)]) (fun t => t.getV 0xF) = some 1 := by decide
/-- T56 -/
theorem test_subnReg :
    seen 0x8127 (withVs [(1, 5), (2, 7)]) (fun t => (t.getV 1, t.getV 0xF)) = some (2, 1) := by decide
/-- T57 -/
theorem test_subnReg_borrow :
    seen 0x8127 (withVs [(1, 7), (2, 5)]) (fun t => (t.getV 1, t.getV 0xF)) = some (0xFE, 0) := by decide
/-- T59 -/
theorem test_shl :
    seen 0x812E (withVs [(1, 0x81)]) (fun t => (t.getV 1, t.getV 0xF)) = some (2, 1) := by decide
/-- T60 -/
theorem test_shl_ignores_y :
    seen 0x812E (withVs [(1, 0x40), (2, 0xFF)]) (fun t => (t.getV 1, t.getV 2, t.getV 0xF)) = some (0x80, 0xFF, 0) := by decide
/-- T65, R154 -/
theorem test_rnd_masked :
    seen 0xC100 State.reset (fun t => (t.pc, t.draws)) = some (0x202, 1) := by decide
/-- T70 -/
theorem test_ldI :
    seen 0xA123 ({ State.reset with i := 0xFFFF } : State) (fun t => t.i) = some 0x123 := by decide
/-- T73 -/
theorem test_addI_edge :
    seen 0xF21E ({ State.reset with i := 0x0FFF } : State) (fun t => (t.i, t.getV 0xF)) = some (0x0FFF, 0) := by decide
/-- T75 -/
theorem test_addI_wraps :
    seen 0xF21E (({ State.reset with i := 0xFFFF } : State).setV 2 2) (fun t => (t.i, t.getV 0xF)) = some (1, 1) := by decide
/-- T78 -/
theorem test_ldF :
    seen 0xF329 (withVs [(3, 0xA)]) (fun t => t.i) = some 0x32 := by decide
/-- T80 -/
theorem test_ldF_range :
    seen 0xF329 (withVs [(3, 0x10)]) (fun t => (t.pc, t.i, t.fault)) = some (0x202, 0, some (.operandRange 0x10)) := by decide
/-- T83 -/
theorem test_ldHf :
    seen 0xF330 (withVs [(3, 0xF)]) (fun t => t.i) = some 0xE6 := by decide
/-- T84 -/
theorem test_ldHf_range :
    seen 0xF330 (withVs [(3, 0xFF)]) (fun t => t.fault) = some (some (.operandRange 0xFF)) := by decide
/-- T85 -/
theorem test_ldB :
    seen 0xFA33 (sprite (withVs [(0xA, 0x9C)]) []) (fun t => t.mem.readBytes 0x300 3) = some [1, 5, 6] := by decide
/-- T90 -/
theorem test_ldB_out_of_bounds :
    seen 0xF033 ({ State.reset with i := 0xFFE } : State) (fun t => (t.mem.read 0xFFE, t.fault)) = some (0, some (.outOfBounds 0x1000)) := by decide
/-- T91 -/
theorem test_storeV :
    seen 0xF255 (sprite (withVs [(0, 0x11), (1, 0x22), (2, 0x33), (3, 0x44)]) []) (fun t => (t.mem.readBytes 0x300 4, t.i)) = some ([0x11, 0x22, 0x33, 0], 0x300) := by decide
/-- T94 -/
theorem test_storeV_out_of_bounds :
    seen 0xF155 (({ State.reset with i := 0xFFF } : State).setV 0 0xAA) (fun t => (t.mem.read 0xFFF, t.fault)) = some (0, some (.outOfBounds 0x1000)) := by decide
/-- T95 -/
theorem test_loadV :
    seen 0xF265 (sprite (withVs [(3, 0x77)]) [1, 5, 6]) (fun t => (t.getV 0, t.getV 1, t.getV 2, t.getV 3)) = some (1, 5, 6, 0x77) := by decide
/-- T96 -/
theorem test_loadV_font :
    seen 0xF465 State.reset (fun t => (t.getV 0, t.getV 1, t.getV 4, t.getV 5)) = some (0xF0, 0x90, 0xF0, 0) := by decide
/-- T99 -/
theorem test_saveR :
    seen 0xF375 (withVs [(0, 0x10), (0xF, 0x1F)]) (fun t => (t.r.toList.getD 0 0, t.r.toList.getD 15 0)) = some (0x10, 0x1F) := by decide
/-- T101 -/
theorem test_restoreR :
    seen 0xF585 (withVs [(5, 0x55)]) (fun t => t.getV 5) = some 0 := by decide
/-- T110 -/
theorem test_cls :
    seen 0x00E0 (lit (withVs [(0xF, 1)]) 63 31) (fun t => (t.disp.get 63 31, t.getV 0xF, t.mode)) = some (false, 1, .legacy) := by decide
/-- T111 -/
theorem test_scd :
    seen 0x00C1 (lit State.reset 5 30) (fun t => (t.disp.get 5 30, t.disp.get 5 31)) = some (false, true) := by decide
/-- T115 -/
theorem test_scr :
    seen 0x00FB (lit State.reset 59 0) (fun t => (t.disp.get 59 0, t.disp.get 63 0)) = some (false, true) := by decide
/-- T116 -/
theorem test_scl :
    seen 0x00FC (lit State.reset 3 7) (fun t => (t.disp.get 0 7, t.disp.get 63 7)) = some (false, false) := by decide
/-- T116 -/
theorem test_scl_moves :
    seen 0x00FC (lit State.reset 63 9) (fun t => (t.disp.get 59 9, t.disp.get 63 9)) = some (true, false) := by decide
/-- T120 -/
theorem test_low :
    seen 0x00FE (lit State.reset 3 3) (fun t => (t.mode, t.disp.get 3 3)) = some (.legacy, false) := by decide
/-- T118 -/
theorem test_high :
    seen 0x00FF (lit State.reset 3 3) (fun t => (t.mode, t.disp.get 3 3, t.disp.length)) = some (.extended, false, 64) := by decide
/-- T126 -/
theorem test_drw_clips :
    seen 0xD011 (sprite (withVs [(0, 62)]) [0xFF]) (fun t => (t.disp.get 62 0, t.disp.get 63 0, t.disp.get 0 0, t.getV 0xF)) = some (true, true, false, 0) := by decide
/-- T123 -/
theorem test_drw_collides :
    seen 0xD011 (lit (sprite State.reset [0x80]) 0 0) (fun t => (t.disp.get 0 0, t.getV 0xF)) = some (false, 1) := by decide
/-- T140 -/
theorem test_skp :
    seen 0xE49E ((withVs [(4, 5)]).press 5) (fun t => t.pc) = some 0x204 := by decide
/-- T144 -/
theorem test_skp_range :
    seen 0xE49E (withVs [(4, 0x10)]) (fun t => (t.pc, t.fault)) = some (0x202, some (.operandRange 0x10)) := by decide
/-- T142 -/
theorem test_sknp :
    seen 0xE4A1 (withVs [(4, 5)]) (fun t => t.pc) = some 0x204 := by decide
/-- T143 -/
theorem test_sknp_down :
    seen 0xE4A1 ((withVs [(4, 5)]).press 5) (fun t => t.pc) = some 0x202 := by decide
/-- T146 -/
theorem test_ldVxK_waits :
    seen 0xF30A State.reset (fun t => t.pc) = some 0x200 := by decide
/-- T148 -/
theorem test_ldVxK_last_key :
    seen 0xF30A (((State.reset.press 1).press 2).release 2) (fun t => (t.pc, t.getV 3)) = some (0x202, 2) := by decide
/-- T151 -/
theorem test_ldVxDt :
    seen 0xF107 ({ State.reset with dt := 0x2A } : State) (fun t => t.getV 1) = some 0x2A := by decide
/-- T152 -/
theorem test_ldDtVx :
    seen 0xF115 (withVs [(1, 0x2A)]) (fun t => (t.dt, t.st)) = some (0x2A, 0) := by decide
/-- T153 -/
theorem test_ldStVx :
    seen 0xF118 (withVs [(1, 0x2A)]) (fun t => (t.dt, t.st)) = some (0, 0x2A) := by decide

/-! ### Fetch, decode errors and the latch -/

/-- T8: PC = 0xFFF -/
theorem test_fetch_across_the_end :
    seen 0 { State.reset with pc := 0xFFF } (fun t => (t.pc, t.fault)) = some (0xFFF, some (.outOfBounds 0x1000)) := by
  decide
/-- T23: PC = 0x10FE -/
theorem test_fetch_beyond_the_end :
    seen 0 { State.reset with pc := 0x10FE } (fun t => (t.pc, t.fault)) = some (0x10FE, some (.outOfBounds 0x10FE)) := by
  decide
/-- T63 -/
theorem test_decode_error :
    seen 0x812F State.reset (fun t => (t.pc, t.fault)) = some (0x202, some (.decodeError 0x812F)) := by decide
/-- T158: a latched machine answers no next state -/
theorem test_latched_machine_halts :
    seen 0x6005 { State.reset with fault := some .stackUnderflow } (fun t => t.pc) = none := by decide
/-- 10_state.md R30 with STACK_LIMIT = 0 -/
theorem test_stack_limit : push (some 0) 0x202 State.reset = .error .stackOverflow := by decide

/-! ### The environment's operations -/

/-- T154, E6 -/
theorem test_tick : (({ State.reset with dt := 3, st := 1 } : State).tick.tick.dt,
    ({ State.reset with dt := 3, st := 1 } : State).tick.tick.st) = (1, 0) := by decide
/-- E5 -/
theorem test_press_twice : (State.reset.press 3).press 3 = State.reset.press 3 := by decide
/-- E5 -/
theorem test_release_up : ((State.reset.press 3).release 4).keyCount = 1 := by decide
/-- T150 -/
theorem test_last_key_of_repeated_press : (((State.reset.press 1).press 2).press 1).lastKey = 1 := by decide
/-- T159 -/
theorem test_getDisplay : ((lit State.reset 0 1).getDisplay)[64]? = some 0xFFFFFFFF := by decide
/-- T162: one byte too many -/
theorem test_load_too_large : (State.reset.loadRom (List.replicate 3585 0)).isNone = true := by decide +kernel
/-- E7: the first word of the source's program, loaded -/
theorem test_load_then_fetch : (State.reset.loadRom [0x00, 0xE0, 0x60, 0x05]).map State.fetch = some (.ok 0x00E0) := by
  decide
/-- 45_host_operations.md R250 -/
theorem test_press_out_of_range :
    (Session.fresh State.reset).apply (.press 16) = .error (.keyIndexOutOfRange 16) := by decide
/-- 45_host_operations.md R251 -/
theorem test_load_after_step :
    Session.run [.step, .load []] (Session.fresh State.reset) = .error .loadAfterFirstStep := by decide

/-! ### Witnesses: for every obligation with hypotheses, a concrete input that meets them, at the
boundaries of each clause -/

/-- A result that is a next state with the property `p`. -/
def nextHas (r : Result) (p : State → Bool) : Bool :=
  match r with
  | .next t => p t
  | _ => false

theorem exists_next {r : Result} {p : State → Bool} (h : nextHas r p = true) :
    ∃ t, r = .next t ∧ p t = true := by
  cases r with
  | next t => exact ⟨t, rfl, h⟩
  | fault f => cases h
  | refused e => cases h

theorem exists_ok {ε α : Type} {e : Except ε α} (h : e.toBool = true) : ∃ a, e = .ok a := by
  cases e with
  | ok a => exact ⟨a, rfl⟩
  | error f => cases h

/-- Reset, with PC at `pc`. -/
def atPc (pc : Word) : State := { State.reset with pc := pc }

/-- Reset, with I at `i`. -/
def atI (i : Word) : State := { State.reset with i := i }

/-- A state with a stack, a listed byte, a key down and an extended display. -/
def busy : State :=
  { State.reset with
    stack := [0x202, 0x1000], mem := [(0x300, 7)], mode := .extended, disp := Display.clear .extended
    key := (Vector.replicate 16 false).set 3 true, keyCount := 1 }

theorem wit_busy_inv : busy.Inv where
  memory := by decide
  display := Display.clear_fits _
  keys := by decide
  stack := by simp [State.stackOfReturns, busy, Config.memSize]
  latch := fun f h => by cases h

theorem wit_ResetStateValues :
    (0 < 80 ∧ 79 < 80 ∧ 159 < 160 ∧ 0x0F0 ≤ 0x0F0 ∧ 0xFFF < 0x1000) ∧
    State.reset.mem.read 0 = 0xF0 ∧ State.reset.mem.read 79 = 0x80 ∧ State.reset.mem.read 0x0F0 = 0 ∧
    State.reset.mem.read 0xFFF = 0 := by decide
theorem wit_StepKeepsInvariant : busy.Inv ∧ ∃ t, step busy = .next t ∧ (t.pc == 0x202) = true :=
  ⟨wit_busy_inv, exists_next (by decide)⟩
theorem wit_EveryInterleavingKeepsInvariant :
    (Session.fresh busy).machine.Inv ∧
    ∃ m', Session.run [.load [0x00, 0xEE], .press 3, .step, .tick, .release 3, .step] (Session.fresh busy) = .ok m' :=
  ⟨wit_busy_inv, exists_ok (by decide)⟩
theorem wit_DecodeOfEncodeIsTheInstruction :
    (Instr.sys 0x1E0).wf = true ∧ (Instr.drw 0xF 0xF 0xF).wf = true ∧ (Instr.scd 0).wf = true := by decide
theorem wit_EncodeOfDecodeIsTheWord : decodeWord 0xDFFF = .ok (.drw 0xF 0xF 0xF) := by decide
theorem wit_WordsSelectTheirRow :
    decodeWord 0x00CF = .ok (.scd 0xF) ∧
    (∀ nnn, Instr.scd 0 ≠ .sys nnn) ∧ (0x00CF : Word) &&& (Instr.scd 0).row.1 = (Instr.scd 0).row.2 :=
  ⟨by decide, fun _ h => (by cases h), by decide⟩
theorem wit_LowNibblesAndTotalFamilies :
    fieldFam 0xD125 ∉ ([0x5, 0x8, 0x9, 0xE, 0xF] : List Nibble) ∧
    fieldFam 0x0000 ∉ ([0x5, 0x8, 0x9, 0xE, 0xF] : List Nibble) := by decide
theorem wit_StepRunsTheDecodedInstruction :
    ((atPc 0xFFE).withFetchWord 16 0x1ABC).fault = none ∧
    ((atPc 0xFFE).withFetchWord 16 0x1ABC).pc.toNat ≤ 0xFFE ∧
    decodeWord ((atPc 0xFFE).withFetchWord 16 0x1ABC).wordAtPc = .ok (.jp 0xABC) := by decide
theorem wit_UnrecognisedWordRaisesDecodeError :
    ((atPc 0xFFE).withFetchWord 16 0xE49F).fault = none ∧
    ((atPc 0xFFE).withFetchWord 16 0xE49F).pc.toNat ≤ 0xFFE ∧
    decodeWord ((atPc 0xFFE).withFetchWord 16 0xE49F).wordAtPc = .error .unknownFamilyE := by decide
theorem wit_FetchBeyondMemoryRaisesOutOfBounds :
    (atPc 0xFFF).fault = none ∧ (atPc 0xFFF).pc.toNat = 0xFFF ∧
    (atPc 0x1000).fault = none ∧ 0xFFF < (atPc 0x1000).pc.toNat := by decide
theorem wit_FaultedMachineStaysHalted :
    ({ busy with fault := some .stackUnderflow } : State).fault = some .stackUnderflow ∧
    (Session.fresh { busy with fault := some .stackUnderflow }).machine =
      { busy with fault := some .stackUnderflow } ∧
    (Session.fresh { busy with fault := some .stackUnderflow }).loadFailed = false := ⟨rfl, rfl, rfl⟩
theorem wit_EveryInstructionAnswers : (atPc 0xFFFF).fault = none := rfl
theorem wit_FaultsArePrecise :
    ((State.reset.withFetchWord 16 0x00EE).fault = none ∧
      ∃ t, step (State.reset.withFetchWord 16 0x00EE) = .next t ∧
        (t.fault == some .stackUnderflow) = true) ∧
    ((atPc 0x1000).fault = none ∧
      ∃ t, step (atPc 0x1000) = .next t ∧ (t.fault == some (.outOfBounds 0x1000)) = true) :=
  ⟨⟨rfl, exists_next (by decide)⟩, rfl, exists_next (by decide)⟩
theorem wit_WhichInstructionRaisesWhichFault :
    (∃ t, exec .ret State.reset = .next t ∧ (t.fault == some .stackUnderflow) = true) ∧
    (∃ t, exec (.ldHf 3) (withVs [(3, 0x10)]) = .next t ∧ (t.fault == some (.operandRange 0x10)) = true) ∧
    (∃ t, exec (.ldB 3) (atI 0xFFE) = .next t ∧ (t.fault == some (.outOfBounds 0x1000)) = true) ∧
    (∃ t, exec (.loadV 1) (atI 0xFFF) = .next t ∧ (t.fault == some (.outOfBounds 0x1000)) = true) ∧
    (∃ t, exec (.drw 0 0 2) (atI 0xFFF) = .next t ∧ (t.fault == some (.outOfBounds 0x1000)) = true) :=
  ⟨exists_next (by decide), exists_next (by decide), exists_next (by decide), exists_next (by decide),
    exists_next (by decide)⟩
theorem wit_FootprintBeyondMemoryHasNoEffect :
    0xFFF < (atI 0xFFE).i.toNat + 2 ∧ 0xFFF < (atI 0xFFF).i.toNat + (1 : Nibble).toNat ∧
    0xFFF < (atI 0xFFF).i.toNat + spriteBytes 2 (atI 0xFFF).mode - 1 ∧
    0xFFF < ({ busy with i := 0xFE1 } : State).i.toNat + spriteBytes 0 .extended - 1 := by decide
theorem wit_ReturnPopsTheNewestAddress :
    busy.stack = [0x202] ++ [0x1000] ∧ State.reset.stack = [] := by decide
theorem wit_ReturnUndoesCall :
    ∃ t, exec (.call 0xABC) busy = .next t ∧ (t.stack == [0x202, 0x1000, 0x200]) = true :=
  exists_next (by decide)
theorem wit_StackPolicies :
    some 2 = some busy.stack.length ∧ none ≠ some busy.stack.length ∧ State.reset.stack = [] := by decide
theorem wit_SpinsChangeNothing :
    (((atPc 0xFFE).withFetchWord 16 0x1FFE).fault = none ∧
      ((atPc 0xFFE).withFetchWord 16 0x1FFE).pc.toNat = (0xFFE : Addr12).toNat ∧
      decodeWord ((atPc 0xFFE).withFetchWord 16 0x1FFE).wordAtPc = .ok (.jp 0xFFE)) ∧
    ((State.reset.withFetchWord 16 0xF30A).keyCount = 0 ∧
      decodeWord (State.reset.withFetchWord 16 0xF30A).wordAtPc = .ok (.ldVxK 3)) := by decide
theorem wit_ZeroedMemoryIsSlidThrough :
    (atPc 0xFFC).fault = none ∧ (atPc 0xFFC).pc.toNat + 2 * 2 ≤ 0x1000 ∧
    ∀ a < 0x1000, (atPc 0xFFC).pc.toNat ≤ a → (atPc 0xFFC).mem.read a = 0 := by
  refine ⟨rfl, by decide, fun a h1 h2 => ?_⟩
  have h3 : 0xFFC ≤ a := h2
  have h4 : a = 0xFFC ∨ a = 0xFFD ∨ a = 0xFFE ∨ a = 0xFFF := by omega
  rcases h4 with rfl | rfl | rfl | rfl <;> decide
theorem wit_AddSetsTheCarry : (0xE : Nibble) ≠ 0xF := by decide
theorem wit_SubtractionsSetNoBorrow : (0 : Nibble) ≠ 0xF := by decide
theorem wit_ShiftsMoveOneBit : (1 : Nibble) ≠ 0xF := by decide
theorem wit_RandomByteIsMasked : (0 : Byte) = 0 := rfl
theorem wit_UnwrittenRegistersKeepTheirValue :
    (∃ t, exec (.addReg 1 2) (withVs [(3, 9)]) = .next t ∧ (t.getV 3 == 9) = true) ∧
    writesV (.addReg 1 2) 3 = false := ⟨exists_next (by decide), by decide⟩
theorem wit_GlyphAddresses :
    ((withVs [(3, 0xF)]).getV 3).toNat ≤ 0xF ∧ 0xF < ((withVs [(3, 0x10)]).getV 3).toNat := by decide
theorem wit_BcdDigitsAreStored : (atI 0xFFD).mem.wf ∧ (atI 0xFFD).i.toNat ≤ 0xFFD := by decide
theorem wit_BlockStoreWritesV0ToVx :
    ((atI 0xFF0).mem.wf ∧ (atI 0xFF0).i.toNat + (0xF : Nibble).toNat ≤ 0xFFF) ∧
    0xFFF < (atI 0xFF1).i.toNat + (0xF : Nibble).toNat := by decide
theorem wit_BlockLoadReadsV0ToVx :
    (atI 0xFFF).i.toNat + (0 : Nibble).toNat ≤ 0xFFF ∧ 0xFFF < (atI 0x1000).i.toNat + (0 : Nibble).toNat := by
  decide
theorem wit_StoredWordRunsNext :
    (atI 0x200).fault = none ∧ (atI 0x200).mem.wf ∧ (atI 0x200).i.toNat + (1 : Nibble).toNat ≤ 0xFFF ∧
    (1 : Nibble).toNat = (0 : Nibble).toNat + 1 ∧
    (atI 0x200).pc.toNat = (atI 0x200).i.toNat + (0 : Nibble).toNat ∧
    ∃ t, exec (.storeV 1) (atI 0x200) = .next t ∧ (t.pc == 0x200) = true :=
  ⟨rfl, by decide, by decide, by decide, by decide, exists_next (by decide)⟩
theorem wit_RestoreBringsBackTheSaved :
    (∀ z, Instr.ldImm 1 0 ≠ .saveR z) ∧
    exec (.saveR 3) (withVs [(1, 5)]) = .next { withVs [(1, 5)] with r := (withVs [(1, 5)]).v } ∧
    ∃ u, exec (.ldImm 1 0) { withVs [(1, 5)] with r := (withVs [(1, 5)]).v } = .next u ∧
      (u.getV 1 == 0) = true :=
  ⟨fun _ h => (by cases h), rfl, exists_next (by decide)⟩
theorem wit_ScrollsMoveEveryCell :
    63 < State.reset.mode.width ∧ 31 < State.reset.mode.height ∧ 127 < busy.mode.width ∧
    63 < busy.mode.height := by decide
theorem wit_ScrollRoundTrip :
    (∃ t, exec .scr busy = .next t ∧ ∃ u, exec .scl t = .next u) ∧
    (∃ t, exec .scl busy = .next t ∧ ∃ u, exec .scr t = .next u) ∧
    127 < busy.mode.width ∧ 63 < busy.mode.height :=
  ⟨⟨_, rfl, _, rfl⟩, ⟨_, rfl, _, rfl⟩, by decide, by decide⟩
theorem wit_DrawXorsAndFlagsCollision :
    (atI 0xFF1).i.toNat + spriteBytes 0xF (atI 0xFF1).mode - 1 ≤ 0xFFF ∧
    (∃ cx < 64, ∃ cy < 32, (lit (sprite State.reset [0x80]) 0 0).disp.get cx cy = true ∧
      (lit (sprite State.reset [0x80]) 0 0).spriteOver 0 0 1 cx cy = true) ∧
    (∀ cx < 64, ∀ cy < 32, State.reset.disp.get cx cy = true →
      State.reset.spriteOver 0 0 1 cx cy = false) :=
  ⟨by decide, ⟨0, by decide, 0, by decide, by decide⟩, fun cx _ cy _ h => by
    rw [State.reset_disp, Display.get_clear] at h; cases h⟩
theorem wit_DrawTwiceRestoresTheBuffer :
    (sprite State.reset [0x80]).disp.fits (sprite State.reset [0x80]).mode ∧
    (sprite State.reset [0x80]).i.toNat + spriteBytes 1 (sprite State.reset [0x80]).mode - 1 ≤ 0xFFF ∧
    ∃ t, exec (.drw 0 1 1) (sprite State.reset [0x80]) = .next t ∧
      (t.getV 0 == (sprite State.reset [0x80]).getV 0 && t.getV 1 == (sprite State.reset [0x80]).getV 1 &&
        nextHas (exec (.drw 0 1 1) t) fun u => u.getV 0xF == 1) = true :=
  ⟨by decide, by decide, exists_next (by decide)⟩
theorem wit_DrawEqualsThePseudocodeLoops :
    (Display.clear .legacy).fits .legacy ∧ (Display.clear .extended).fits .extended :=
  ⟨Display.clear_fits _, Display.clear_fits _⟩
theorem wit_KeySkips :
    ((withVs [(4, 0xF)]).getV 4).toNat = (0xF : Nibble).toNat ∧ 0xF < ((withVs [(4, 0x10)]).getV 4).toNat := by
  decide
theorem wit_KeyWaitDeliversTheLastKey : 0 < (State.reset.press 3).keyCount ∧ State.reset.keyCount = 0 := by
  decide
theorem wit_ExportIsRowMajor : 63 < State.reset.mode.width ∧ 31 < State.reset.mode.height := by decide
theorem wit_LoadPlacesTheRom :
    State.reset.mem.wf ∧ (List.replicate 3584 (1 : Byte)).length ≤ 3584 ∧
    3584 < (List.replicate 3585 (1 : Byte)).length := ⟨Memory.wf_nil,
  Nat.le_of_eq List.length_replicate, Nat.lt_of_lt_of_eq (by decide : 3584 < 3585) List.length_replicate.symm⟩
/-- A configuration with `n` bytes of MEM_INIT. -/
def config (n : Nat) : ResetConfig :=
  ⟨List.replicate 80 1, List.replicate 160 2, List.replicate n 3, Vector.replicate 16 4⟩

theorem config_memInit (n : Nat) : (config n).memInit.length = n := List.length_replicate

theorem wit_ResetOperation :
    (config 3856).fontSmall.length = 80 ∧ (config 3856).fontLarge.length = 160 ∧
    (config 3856).memInit.length ≤ 3856 ∧ 3855 < (config 3856).memInit.length ∧
    (config 3).memInit.length ≤ 3856 ∧ 0x0F0 + (config 3).memInit.length ≤ 0x0F3 ∧
    0x0F0 + (config 3855).memInit.length ≤ 0xFFF := by
  simp only [config_memInit]
  exact ⟨List.length_replicate, List.length_replicate, by decide, by decide, by decide, by decide, by decide⟩
theorem wit_EnvironmentDutiesAreEnforced :
    15 < 16 ∧ (∃ p, (Session.fresh busy).apply .step = .ok p) ∧
    (∃ m', (Session.fresh busy).apply (.load [1]) = .ok (m', .ok)) ∧
    (Session.fresh busy).started = false ∧ (Session.fresh busy).loaded = false ∧
    3584 < (List.replicate 3585 (1 : Byte)).length :=
  ⟨by decide, exists_ok (by decide), ⟨_, rfl⟩, rfl, rfl,
    Nat.lt_of_lt_of_eq (by decide : 3584 < 3585) List.length_replicate.symm⟩
theorem wit_EachComponentHasItsWriters :
    (∃ t, exec (.ldDtVx 1) (withVs [(1, 5)]) = .next t ∧ (t.dt == 5 && t.getV 1 == 5) = true) ∧
    writesV (.ldDtVx 1) 1 = false := ⟨exists_next (by decide), by decide⟩

end Sys2Proof.Tests
end

section
/-! The words that decode rejects in families 8, E and F (30_encoding.md R102, R103, R104). -/

namespace Sys2Proof

/-! ### A word of families 8, E, F is decoded by its family's own list, on the fields it was made of -/

theorem decodeWord_family8 (x y n : Nibble) :
    decodeWord (wordXYN 0x8 x y n) = decodeFamily8 x y n := by
  simp [decodeWord, fieldFam_XYN, fieldX_XYN, fieldY_XYN, fieldN_XYN]

theorem decodeWord_familyE (x : Nibble) (kk : Byte) :
    decodeWord (wordXKK 0xE x kk) = decodeFamilyE x kk := by
  simp [decodeWord, fieldFam_XKK, fieldX_XKK, fieldKk_XKK]

theorem decodeWord_familyF (x : Nibble) (kk : Byte) :
    decodeWord (wordXKK 0xF x kk) = decodeFamilyF x kk := by
  simp [decodeWord, fieldFam_XKK, fieldX_XKK, fieldKk_XKK]

/-! ### What each family's list leaves out

The last arm of each match is the one that rejects: its operand differs from every listed value. In an
arm before it the operand is a listed value. -/

/-- A nibble left over by the nine listed values is one of the other seven (30_encoding.md R102). -/
theorem decodeFamily8_error_iff (x y n : Nibble) :
    (∃ e, decodeFamily8 x y n = .error e) ↔
      n ∈ ([0x8, 0x9, 0xA, 0xB, 0xC, 0xD, 0xF] : List Nibble) := by
  have hn : n.toNat < 16 := n.isLt
  simp only [List.mem_cons, List.not_mem_nil, or_false, ← BitVec.toNat_inj]
  unfold decodeFamily8
  split
  case h_10 =>
    simp only [Except.error.injEq, exists_eq', true_iff, imp_false, BitVec.reduceToNat] at *
    omega
  all_goals simp [*]

theorem decodeFamilyE_error_iff (x : Nibble) (kk : Byte) :
    (∃ e, decodeFamilyE x kk = .error e) ↔ kk ≠ 0x9E ∧ kk ≠ 0xA1 := by
  simp only [ne_eq, ← BitVec.toNat_inj]
  unfold decodeFamilyE
  split
  case h_3 hSkp hSknp => simpa using ⟨hSkp, hSknp⟩
  all_goals simp [*]

theorem decodeFamilyF_error_iff (x : Nibble) (kk : Byte) :
    (∃ e, decodeFamilyF x kk = .error e) ↔
      kk ∉ ([0x07, 0x0A, 0x15, 0x18, 0x1E, 0x29, 0x30, 0x33, 0x55, 0x65, 0x75, 0x85] : List Byte) := by
  simp only [List.mem_cons, List.not_mem_nil, or_false, ← BitVec.toNat_inj]
  unfold decodeFamilyF
  split
  case h_13 => simp_all
  all_goals simp [*]

/-- Settles O8: such a word is decoded by its family's list, which rejects what it leaves out. -/
theorem rejectedWordsOfFamilies8EF : Obligations.RejectedWordsOfFamilies8EF := by
  unfold Obligations.RejectedWordsOfFamilies8EF
  simp only [decodeWord_family8, decodeWord_familyE, decodeWord_familyF]
  exact ⟨decodeFamily8_error_iff, decodeFamilyE_error_iff, decodeFamilyF_error_iff⟩

end Sys2Proof
end

section
/-! The instructions of 40_control_flow.md that change at most PC by a skip: SYS (R120) and the four
compare-and-skip instructions (R124, R125, R126, R127). -/

namespace Sys2Proof.Machine

/-! ### The arms of `exec` -/

theorem exec_sys (nnn : Addr12) (s : State) : exec (.sys nnn) s = .next s := rfl

theorem exec_seImm (x : Nibble) (kk : Byte) (s : State) :
    exec (.seImm x kk) s = .next (s.skipIf (s.getV x == kk)) := rfl

theorem exec_sneImm (x : Nibble) (kk : Byte) (s : State) :
    exec (.sneImm x kk) s = .next (s.skipIf (s.getV x != kk)) := rfl

theorem exec_seReg (x y : Nibble) (s : State) :
    exec (.seReg x y) s = .next (s.skipIf (s.getV x == s.getV y)) := rfl

theorem exec_sneReg (x y : Nibble) (s : State) :
    exec (.sneReg x y) s = .next (s.skipIf (s.getV x != s.getV y)) := rfl

/-! ### A skip writes PC alone, whatever its condition -/

/-- The whole-state form of the field lemmas `State.skipIf_v` to `State.skipIf_draws`. -/
theorem State.skipIf_eq (s : State) (c : Bool) :
    s.skipIf c = { s with pc := if c then s.pc + 2 else s.pc } := by
  cases c with
  | false => rfl
  | true => rfl

theorem State.skipIf_beq (s : State) (a b : Byte) :
    s.skipIf (a == b) = { s with pc := if a = b then s.pc + 2 else s.pc } := by
  simp only [State.skipIf_eq, beq_iff_eq]

theorem State.skipIf_bne (s : State) (a b : Byte) :
    s.skipIf (a != b) = { s with pc := if a = b then s.pc else s.pc + 2 } := by
  simp only [State.skipIf_eq, bne_iff_ne, ne_eq, ite_not]

end Sys2Proof.Machine

namespace Sys2Proof

open Sys2Proof.Machine

/-- Settles O19: the arm of SYS answers the state it was given. -/
theorem sysIsIgnored : Obligations.SysIsIgnored := exec_sys

/-- Settles O25: each is a skip on `==` or on `!=`, and a skip writes PC alone. -/
theorem skipsCompareForEquality : Obligations.SkipsCompareForEquality := by
  intro x y kk s
  refine ⟨?seImm, ?sneImm, ?seReg, ?sneReg⟩
  case seImm => rw [exec_seImm, State.skipIf_beq]
  case sneImm => rw [exec_sneImm, State.skipIf_bne]
  case seReg => rw [exec_seReg, State.skipIf_beq]
  case sneReg => rw [exec_sneReg, State.skipIf_bne]

end Sys2Proof
end

section
/-! The instructions of 41_alu.md that write one V register and no flag: LD Vx,kk (R143), ADD Vx,kk
(R144) and LD Vx,Vy (R145). -/

namespace Sys2Proof.Machine

/-! ### The arms of `exec` -/

theorem exec_ldImm (x : Nibble) (kk : Byte) (s : State) :
    exec (.ldImm x kk) s = .next (s.setV x kk) := rfl

theorem exec_addImm (x : Nibble) (kk : Byte) (s : State) :
    exec (.addImm x kk) s = .next (s.setV x (s.getV x + kk)) := rfl

theorem exec_ldReg (x y : Nibble) (s : State) :
    exec (.ldReg x y) s = .next (s.setV x (s.getV y)) := rfl

/-! ### The frame of a register write -/

theorem State.setV_keepsOtherVs (s : State) (x : Nibble) (b : Byte) :
    AllVsKeptBut x s (s.setV x b) := fun _ hj => State.getV_setV_ne s b hj

theorem State.setV_onlyV (s : State) (x : Nibble) (b : Byte) : OnlyV s (s.setV x b) :=
  ⟨State.setV_eq s x b, fun _ => rfl⟩

/-- An instruction that answers with one register write leaves the written byte in Vx, and everything
but Vx as it was. -/
theorem exists_setV {r : Result} {s : State} {x : Nibble} {b : Byte} (h : r = .next (s.setV x b)) :
    ∃ t, r = .next t ∧ t.getV x = b ∧ AllVsKeptBut x s t ∧ OnlyV s t :=
  ⟨s.setV x b, h, State.getV_setV_same s x b, State.setV_keepsOtherVs s x b, State.setV_onlyV s x b⟩

end Sys2Proof.Machine

namespace Sys2Proof

open Sys2Proof.Machine

/-- Settles O28: each answers with one register write; the sum wraps as `BitVec` addition does. -/
theorem loadAndAddImmediateResults : Obligations.LoadAndAddImmediateResults := by
  intro x y kk s
  refine ⟨?ldImm, ?addImm, ?ldReg⟩
  case ldImm => exact exists_setV (exec_ldImm x kk s)
  case addImm =>
    obtain ⟨t, hexec, hsum, hkept⟩ := exists_setV (exec_addImm x kk s)
    have hwrap : (t.getV x).toNat = ((s.getV x).toNat + kk.toNat) % 256 := by
      rw [hsum, BitVec.toNat_add]
    exact ⟨t, hexec, hwrap, hkept⟩
  case ldReg => exact exists_setV (exec_ldReg x y s)

end Sys2Proof
end

section
/-! The instructions of 42_index_memory.md that copy a whole register or register file: LD I,nnn (R170)
and the moves between V and the shadow file R (R178, R179). -/

namespace Sys2Proof.Machine

/-! ### The arms of `exec` -/

theorem exec_ldI (nnn : Addr12) (s : State) : exec (.ldI nnn) s = .next { s with i := zext12 nnn } := rfl

theorem exec_saveR (x : Nibble) (s : State) : exec (.saveR x) s = .next { s with r := s.v } := rfl

theorem exec_restoreR (x : Nibble) (s : State) : exec (.restoreR x) s = .next { s with v := s.r } := rfl

/-! ### What the written component holds, and what the write keeps -/

theorem toNat_zext12 (nnn : Addr12) : (zext12 nnn).toNat = nnn.toNat :=
  BitVec.toNat_setWidth_of_le (by decide : 12 ≤ 16)

/-- Any overwriting of the register file keeps every other component, and memory byte by byte. -/
theorem State.withV_onlyV (s : State) (v : Vector Byte 16) : OnlyV s { s with v := v } :=
  ⟨rfl, fun _ => rfl⟩

end Sys2Proof.Machine

namespace Sys2Proof

open Sys2Proof.Machine

/-- Settles O35: the 12-bit operand is zero-extended, so I holds its value. -/
theorem loadIZeroExtends : Obligations.LoadIZeroExtends := fun nnn s =>
  ⟨{ s with i := zext12 nnn }, exec_ldI nnn s, rfl, toNat_zext12 nnn⟩

/-- Settles O42: each instruction replaces one file by the other as a whole, so the operand x has no
part in it and all sixteen registers agree afterwards. -/
theorem shadowFileMovesAllSixteen : Obligations.ShadowFileMovesAllSixteen := by
  intro x s
  refine ⟨?saveR, ?restoreR⟩
  case saveR => exact ⟨{ s with r := s.v }, exec_saveR x s, rfl, fun _ => rfl⟩
  case restoreR =>
    exact ⟨{ s with v := s.r }, exec_restoreR x s, State.withV_onlyV s s.r, fun _ => rfl⟩

end Sys2Proof
end

section
/-! CLS (43_display.md R190), and the export of a display with no lit cell (R247). -/

namespace Sys2Proof.Machine

/-! ### The arm of `exec` -/

theorem exec_cls (s : State) : exec .cls s = .next { s with disp := Display.clear s.mode } := rfl

/-! ### The frame of a display write -/

theorem State.withDisp_sameMemory (s : State) (d : Display) : SameMemory s { s with disp := d } :=
  fun _ => rfl

/-! ### The export of a display with no lit cell -/

/-- The export reads W cells in each of H rows, and each unlit cell gives one zero word. -/
theorem State.getDisplay_of_unlit {s : State} (hunlit : ∀ x y, s.disp.get x y = false) :
    s.getDisplay = List.replicate (s.mode.width * s.mode.height) 0x00000000 := by
  have hlength : s.getDisplay.length = s.mode.width * s.mode.height := by
    simp [State.getDisplay, Nat.mul_comm]
  have hzero : ∀ w ∈ s.getDisplay, w = 0x00000000 := by
    simp [State.getDisplay, hunlit]
  exact List.eq_replicate_iff.2 ⟨hlength, hzero⟩

end Sys2Proof.Machine

namespace Sys2Proof

open Sys2Proof.Machine

/-- Settles O44: the new buffer is the clear buffer of the mode, whose cells are all unlit, and the
export of such a buffer is all zero words. -/
theorem clearYieldsAnUnlitBuffer : Obligations.ClearYieldsAnUnlitBuffer := by
  intro s
  have hunlit : ∀ x y, (Display.clear s.mode).get x y = false := Display.get_clear s.mode
  exact ⟨{ s with disp := Display.clear s.mode }, exec_cls s, rfl, State.withDisp_sameMemory s _,
    Display.clear_fits s.mode, hunlit, State.getDisplay_of_unlit hunlit⟩

end Sys2Proof
end

section
/-! The timer moves of 44_keys_timers.md: LD Vx,DT (R223), LD DT,Vx (R224) and LD ST,Vx (R225). -/

namespace Sys2Proof.Machine

/-! ### The arms of `exec` -/

theorem exec_ldVxDt (x : Nibble) (s : State) : exec (.ldVxDt x) s = .next (s.setV x s.dt) := rfl

theorem exec_ldDtVx (x : Nibble) (s : State) :
    exec (.ldDtVx x) s = .next { s with dt := s.getV x } := rfl

theorem exec_ldStVx (x : Nibble) (s : State) :
    exec (.ldStVx x) s = .next { s with st := s.getV x } := rfl

end Sys2Proof.Machine

namespace Sys2Proof

open Sys2Proof.Machine

/-- Settles O53: the read of DT is one register write, whose frame `exists_setV` gives; each write of a
timer is its arm of `exec`. -/
theorem timerAccess : Obligations.TimerAccess := by
  intro x s
  refine ⟨?ldVxDt, ?ldDtVx, ?ldStVx⟩
  case ldVxDt => exact exists_setV (exec_ldVxDt x s)
  case ldDtVx => exact exec_ldDtVx x s
  case ldStVx => exact exec_ldStVx x s

end Sys2Proof
end

section
/-! TICK (45_host_operations.md R244): both timers count down and stop at 0. -/

namespace Sys2Proof.Machine

/-- The floor at 0 is the truncation of natural subtraction, and above 0 the byte does not wrap. -/
theorem toNat_countDown (b : Byte) : (if b = 0 then 0 else b - 1).toNat = b.toNat - 1 := by
  split
  case isTrue hzero => rw [hzero]; rfl
  case isFalse hpos => bv_omega

theorem State.tick_dt_toNat (s : State) : s.tick.dt.toNat = s.dt.toNat - 1 := toNat_countDown s.dt

theorem State.tick_st_toNat (s : State) : s.tick.st.toNat = s.st.toNat - 1 := toNat_countDown s.st

end Sys2Proof.Machine

namespace Sys2Proof

open Sys2Proof.Machine

/-- Settles O54: each timer counts down as a natural number does, and `State.tick_eq` is the frame. -/
theorem tickCountsBothTimersDown : Obligations.TickCountsBothTimersDown := fun s =>
  ⟨State.tick_dt_toNat s, State.tick_st_toNat s, State.tick_eq s⟩

end Sys2Proof
end

section
/-! GETDISPLAY (45_host_operations.md R247): the length of the export, and its word at y * W + x. -/

namespace Sys2Proof.Machine

/-! ### Reading a concatenation of rows of one width -/

/-- Position `y * w + x` with `x < w` of rows of width `w` is position `x` of row `y`. -/
theorem getElem?_flatMap_of_width {α β : Type} {rowOf : α → List β} {w x : Nat}
    (hwidth : ∀ a, (rowOf a).length = w) (hx : x < w) (l : List α) (y : Nat) :
    (l.flatMap rowOf)[y * w + x]? = l[y]?.bind fun a => (rowOf a)[x]? := by
  induction l generalizing y with
  | nil => rfl
  | cons a l ih =>
    rw [List.flatMap_cons]
    cases y with
    | zero => simp [List.getElem?_append_left, hwidth, hx]
    | succ y =>
      have hpast : (y + 1) * w + x = (rowOf a).length + (y * w + x) := by rw [hwidth]; ring
      rw [hpast, List.getElem?_append_right (Nat.le_add_right _ _), Nat.add_sub_cancel_left, ih,
        List.getElem?_cons_succ]

/-! ### The export -/

/-- The export has H rows of W words each. -/
theorem State.getDisplay_length (s : State) :
    s.getDisplay.length = s.mode.width * s.mode.height := by
  simp [State.getDisplay, Nat.mul_comm]

/-- The word at `y * W + x` is word x of row y, which tells whether the cell (x, y) is lit. -/
theorem State.getDisplay_getElem? (s : State) {x y : Nat} (hx : x < s.mode.width)
    (hy : y < s.mode.height) :
    s.getDisplay[y * s.mode.width + x]? =
      some (if s.disp.get x y then 0xFFFFFFFF else 0x00000000) := by
  rw [State.getDisplay, getElem?_flatMap_of_width (by simp) hx, List.getElem?_range hy,
    Option.bind_some, List.getElem?_map, List.getElem?_range hx, Option.map_some]

end Sys2Proof.Machine

namespace Sys2Proof

open Sys2Proof.Machine

/-- Settles O56: the export is H rows of W words, so row y starts at `y * W`. -/
theorem exportIsRowMajor : Obligations.ExportIsRowMajor := fun s =>
  ⟨State.getDisplay_length s, fun _ hx _ hy => State.getDisplay_getElem? s hx hy⟩

end Sys2Proof
end

section
/-! The encoder and the decoder (30_encoding.md R91 to R106): each is the inverse of the other, on the
well-formed instructions and on the accepted words. -/

namespace Sys2Proof

open Sys2Proof.Laws

/-! ### The per-instruction laws, for any instruction -/

theorem roundTrip : ∀ i : Instr, RoundTrip.Statement i
  | .cls => RoundTrip.cls
  | .scd n => RoundTrip.scd n
  | .ret => RoundTrip.ret
  | .scr => RoundTrip.scr
  | .scl => RoundTrip.scl
  | .low => RoundTrip.low
  | .high => RoundTrip.high
  | .sys nnn => RoundTrip.sys nnn
  | .jp nnn => RoundTrip.jp nnn
  | .call nnn => RoundTrip.call nnn
  | .seImm x kk => RoundTrip.seImm x kk
  | .sneImm x kk => RoundTrip.sneImm x kk
  | .seReg x y => RoundTrip.seReg x y
  | .ldImm x kk => RoundTrip.ldImm x kk
  | .addImm x kk => RoundTrip.addImm x kk
  | .ldReg x y => RoundTrip.ldReg x y
  | .orReg x y => RoundTrip.orReg x y
  | .andReg x y => RoundTrip.andReg x y
  | .xorReg x y => RoundTrip.xorReg x y
  | .addReg x y => RoundTrip.addReg x y
  | .subReg x y => RoundTrip.subReg x y
  | .shr x y => RoundTrip.shr x y
  | .subnReg x y => RoundTrip.subnReg x y
  | .shl x y => RoundTrip.shl x y
  | .sneReg x y => RoundTrip.sneReg x y
  | .ldI nnn => RoundTrip.ldI nnn
  | .jpV0 nnn => RoundTrip.jpV0 nnn
  | .rnd x kk => RoundTrip.rnd x kk
  | .drw x y n => RoundTrip.drw x y n
  | .skp x => RoundTrip.skp x
  | .sknp x => RoundTrip.sknp x
  | .ldVxDt x => RoundTrip.ldVxDt x
  | .ldVxK x => RoundTrip.ldVxK x
  | .ldDtVx x => RoundTrip.ldDtVx x
  | .ldStVx x => RoundTrip.ldStVx x
  | .addI x => RoundTrip.addI x
  | .ldF x => RoundTrip.ldF x
  | .ldHf x => RoundTrip.ldHf x
  | .ldB x => RoundTrip.ldB x
  | .storeV x => RoundTrip.storeV x
  | .loadV x => RoundTrip.loadV x
  | .saveR x => RoundTrip.saveR x
  | .restoreR x => RoundTrip.restoreR x

theorem rowMatch : ∀ i : Instr, RowMatch.Statement i
  | .cls => RowMatch.cls
  | .scd n => RowMatch.scd n
  | .ret => RowMatch.ret
  | .scr => RowMatch.scr
  | .scl => RowMatch.scl
  | .low => RowMatch.low
  | .high => RowMatch.high
  | .sys nnn => RowMatch.sys nnn
  | .jp nnn => RowMatch.jp nnn
  | .call nnn => RowMatch.call nnn
  | .seImm x kk => RowMatch.seImm x kk
  | .sneImm x kk => RowMatch.sneImm x kk
  | .seReg x y => RowMatch.seReg x y
  | .ldImm x kk => RowMatch.ldImm x kk
  | .addImm x kk => RowMatch.addImm x kk
  | .ldReg x y => RowMatch.ldReg x y
  | .orReg x y => RowMatch.orReg x y
  | .andReg x y => RowMatch.andReg x y
  | .xorReg x y => RowMatch.xorReg x y
  | .addReg x y => RowMatch.addReg x y
  | .subReg x y => RowMatch.subReg x y
  | .shr x y => RowMatch.shr x y
  | .subnReg x y => RowMatch.subnReg x y
  | .shl x y => RowMatch.shl x y
  | .sneReg x y => RowMatch.sneReg x y
  | .ldI nnn => RowMatch.ldI nnn
  | .jpV0 nnn => RowMatch.jpV0 nnn
  | .rnd x kk => RowMatch.rnd x kk
  | .drw x y n => RowMatch.drw x y n
  | .skp x => RowMatch.skp x
  | .sknp x => RowMatch.sknp x
  | .ldVxDt x => RowMatch.ldVxDt x
  | .ldVxK x => RowMatch.ldVxK x
  | .ldDtVx x => RowMatch.ldDtVx x
  | .ldStVx x => RowMatch.ldStVx x
  | .addI x => RowMatch.addI x
  | .ldF x => RowMatch.ldF x
  | .ldHf x => RowMatch.ldHf x
  | .ldB x => RowMatch.ldB x
  | .storeV x => RowMatch.storeV x
  | .loadV x => RowMatch.loadV x
  | .saveR x => RowMatch.saveR x
  | .restoreR x => RowMatch.restoreR x

theorem decodeWord_encode {i : Instr} (h : i.wf = true) : decodeWord (encode i) = .ok i := roundTrip i h

theorem decodeBytes_encodeBytes {i : Instr} (h : i.wf = true) (rest : List Byte) :
    decodeBytes (encodeBytes i ++ rest) = .ok (i, rest) := by
  simp [encodeBytes, bytesOfWord, decodeBytes, wordOfBytes_bytesOfWord, decodeWord_encode h]

/-! ### A word of a known family is made of that family and its other fields -/

theorem wordNNN_of_fam {w : Word} {f : Nibble} (h : (fieldFam w).toNat = f.toNat) :
    wordNNN f (fieldNnn w) = w := by
  rw [← BitVec.eq_of_toNat_eq h, wordNNN_fields]

theorem wordXKK_of_fam {w : Word} {f : Nibble} (h : (fieldFam w).toNat = f.toNat) :
    wordXKK f (fieldX w) (fieldKk w) = w := by
  rw [← BitVec.eq_of_toNat_eq h, wordXKK_fields]

theorem wordXYN_of_fam {w : Word} {f : Nibble} (h : (fieldFam w).toNat = f.toNat) :
    wordXYN f (fieldX w) (fieldY w) (fieldN w) = w := by
  rw [← BitVec.eq_of_toNat_eq h, wordXYN_fields]

/-! ### What a family decodes to encodes back to the fields it was decoded from -/

/-- `0x0Cn` is the `nnn` of SCD n. -/
theorem wordXYN_scd {nnn : Addr12} (h : nnn.extractLsb' 4 8 = 0x0C) :
    wordXYN 0x0 0x0 0xC (nnn.extractLsb' 0 4) = wordNNN 0x0 nnn := by
  have hhigh : (nnn.extractLsb' 4 8).toNat = 0x0C := congrArg BitVec.toNat h
  rw [BitVec.extractLsb'_toNat, Nat.shiftRight_eq_div_pow] at hhigh
  have := nnn.isLt
  apply BitVec.eq_of_toNat_eq
  rw [wordXYN_toNat, wordNNN_toNat, BitVec.extractLsb'_toNat, Nat.shiftRight_eq_div_pow]
  simp only [BitVec.reduceToNat]
  omega

theorem decodeFamily0_wf (nnn : Addr12) : (decodeFamily0 nnn).wf = true := by
  unfold decodeFamily0
  split_ifs
  case neg => simp_all [Instr.wf, recognisedFamily0]
  all_goals rfl

theorem encode_decodeFamily0 (nnn : Addr12) : encode (decodeFamily0 nnn) = wordNNN 0x0 nnn := by
  unfold decodeFamily0
  split_ifs with hcls hret hscr hscl hlow hhigh hscd
  · rw [hcls]; rfl
  · rw [hret]; rfl
  · rw [hscr]; rfl
  · rw [hscl]; rfl
  · rw [hlow]; rfl
  · rw [hhigh]; rfl
  · exact wordXYN_scd hscd
  · rfl

theorem eq_of_decodeLowNibble {n : Nibble} {i j : Instr}
    (h : decodeLowNibble Machine.Param.strictLowNibble n i = .ok j) : n = 0 ∧ j = i := by
  unfold decodeLowNibble at h
  split at h
  case isTrue => cases h
  case isFalse hn =>
    cases h
    exact ⟨by simpa [Machine.Param.strictLowNibble] using hn, rfl⟩

theorem encode_of_decodeFamily8 {x y n : Nibble} {i : Instr} (h : decodeFamily8 x y n = .ok i) :
    i.wf = true ∧ encode i = wordXYN 0x8 x y n := by
  unfold decodeFamily8 at h
  split at h
  case h_10 => cases h
  all_goals
    next hn =>
    cases h
    exact ⟨rfl, congrArg (wordXYN 0x8 x y) (BitVec.eq_of_toNat_eq hn.symm)⟩

theorem encode_of_decodeFamilyE {x : Nibble} {kk : Byte} {i : Instr} (h : decodeFamilyE x kk = .ok i) :
    i.wf = true ∧ encode i = wordXKK 0xE x kk := by
  unfold decodeFamilyE at h
  split at h
  case h_3 => cases h
  all_goals
    next hkk =>
    cases h
    exact ⟨rfl, congrArg (wordXKK 0xE x) (BitVec.eq_of_toNat_eq hkk.symm)⟩

theorem encode_of_decodeFamilyF {x : Nibble} {kk : Byte} {i : Instr} (h : decodeFamilyF x kk = .ok i) :
    i.wf = true ∧ encode i = wordXKK 0xF x kk := by
  unfold decodeFamilyF at h
  split at h
  case h_13 => cases h
  all_goals
    next hkk =>
    cases h
    exact ⟨rfl, congrArg (wordXKK 0xF x) (BitVec.eq_of_toNat_eq hkk.symm)⟩

/-- The word is made again in the format of its family: NNN, XKK or XYN. Case `h_k` of the split is
family k - 1. -/
theorem encode_of_decodeWord {w : Word} {i : Instr} (h : decodeWord w = .ok i) :
    i.wf = true ∧ encode i = w := by
  unfold decodeWord at h
  split at h
  case h_1 hfam =>
    cases h
    exact ⟨decodeFamily0_wf _, (encode_decodeFamily0 _).trans (wordNNN_of_fam hfam)⟩
  case h_6 hfam =>
    obtain ⟨hn, rfl⟩ := eq_of_decodeLowNibble h
    have hword := wordXYN_of_fam (f := 0x5) hfam
    rw [hn] at hword
    exact ⟨rfl, hword⟩
  case h_9 hfam =>
    obtain ⟨hwf, henc⟩ := encode_of_decodeFamily8 h
    exact ⟨hwf, henc.trans (wordXYN_of_fam hfam)⟩
  case h_10 hfam =>
    obtain ⟨hn, rfl⟩ := eq_of_decodeLowNibble h
    have hword := wordXYN_of_fam (f := 0x9) hfam
    rw [hn] at hword
    exact ⟨rfl, hword⟩
  case h_15 hfam =>
    obtain ⟨hwf, henc⟩ := encode_of_decodeFamilyE h
    exact ⟨hwf, henc.trans (wordXKK_of_fam hfam)⟩
  case h_16 =>
    obtain ⟨hwf, henc⟩ := encode_of_decodeFamilyF h
    have hfam : (fieldFam w).toNat = 0xF := by
      have := (fieldFam w).isLt
      simp only [imp_false] at *
      omega
    exact ⟨hwf, henc.trans (wordXKK_of_fam hfam)⟩
  case h_14 hfam => cases h; exact ⟨rfl, wordXYN_of_fam hfam⟩
  case h_2 hfam => cases h; exact ⟨rfl, wordNNN_of_fam hfam⟩
  case h_3 hfam => cases h; exact ⟨rfl, wordNNN_of_fam hfam⟩
  case h_11 hfam => cases h; exact ⟨rfl, wordNNN_of_fam hfam⟩
  case h_12 hfam => cases h; exact ⟨rfl, wordNNN_of_fam hfam⟩
  all_goals
    next hfam =>
    cases h
    exact ⟨rfl, wordXKK_of_fam hfam⟩

/-- An accepted word selects the row of what it decodes to. -/
theorem selects_of_decodeWord {w : Word} {i : Instr} (h : decodeWord w = .ok i) :
    w &&& i.row.1 = i.row.2 := by
  obtain ⟨-, henc⟩ := encode_of_decodeWord h
  exact henc ▸ rowMatch i

/-! ### What a row's mask and match say of a word's fields -/

theorem wordXYN_maskHigh (f x y n : Nibble) : wordXYN f x y n &&& 0xFFF0 = wordXYN f x y 0 := by
  have hmask : (0xFFF0 : Word) = 0xF#4 ++ 0xF#4 ++ 0xF#4 ++ 0x0#4 := rfl
  have hkeep : ∀ a : Nibble, a &&& 0xF#4 = a := fun _ => BitVec.and_allOnes
  rw [hmask, wordXYN, BitVec.and_append, BitVec.and_append, BitVec.and_append, hkeep, hkeep, hkeep,
    BitVec.and_zero]
  rfl

theorem word_eq_of_fullMask {w m : Word} (h : w &&& 0xFFFF = m) : m = w :=
  h.symm.trans BitVec.and_allOnes

theorem fieldFam_of_mask {w : Word} {f : Nibble} (h : w &&& 0xF000 = wordNNN f 0) : fieldFam w = f := by
  rw [← wordNNN_fields w, wordNNN_mask] at h
  simpa only [fieldFam_NNN] using congrArg fieldFam h

theorem word_eq_NNN {w : Word} {f : Nibble} (h : w &&& 0xF000 = wordNNN f 0) :
    wordNNN f (fieldNnn w) = w := by
  rw [← fieldFam_of_mask h, wordNNN_fields]

theorem word_eq_XKK {w : Word} {f : Nibble} (h : w &&& 0xF000 = wordNNN f 0) :
    wordXKK f (fieldX w) (fieldKk w) = w := by
  rw [← fieldFam_of_mask h, wordXKK_fields]

theorem word_eq_XYN {w : Word} {f : Nibble} (h : w &&& 0xF000 = wordNNN f 0) :
    wordXYN f (fieldX w) (fieldY w) (fieldN w) = w := by
  rw [← fieldFam_of_mask h, wordXYN_fields]

theorem word_eq_XY {w : Word} {f n : Nibble} (h : w &&& 0xF00F = wordXYN f 0 0 n) :
    wordXYN f (fieldX w) (fieldY w) n = w := by
  rw [← wordXYN_fields w, wordXYN_maskLow] at h
  have hfam : fieldFam w = f := by simpa only [fieldFam_XYN] using congrArg fieldFam h
  have hn : fieldN w = n := by simpa only [fieldN_XYN] using congrArg fieldN h
  rw [← hfam, ← hn, wordXYN_fields]

theorem word_eq_X {w : Word} {f : Nibble} {kk : Byte} (h : w &&& 0xF0FF = wordXKK f 0 kk) :
    wordXKK f (fieldX w) kk = w := by
  rw [← wordXKK_fields w, wordXKK_maskLow] at h
  have hfam : fieldFam w = f := by simpa only [fieldFam_XKK] using congrArg fieldFam h
  have hkk : fieldKk w = kk := by simpa only [fieldKk_XKK] using congrArg fieldKk h
  rw [← hfam, ← hkk, wordXKK_fields]

theorem word_eq_N {w : Word} {f x y : Nibble} (h : w &&& 0xFFF0 = wordXYN f x y 0) :
    wordXYN f x y (fieldN w) = w := by
  rw [← wordXYN_fields w, wordXYN_maskHigh] at h
  have hfam : fieldFam w = f := by simpa only [fieldFam_XYN] using congrArg fieldFam h
  have hx : fieldX w = x := by simpa only [fieldX_XYN] using congrArg fieldX h
  have hy : fieldY w = y := by simpa only [fieldY_XYN] using congrArg fieldY h
  rw [← hfam, ← hx, ← hy, wordXYN_fields]

/-- A word that selects a row other than SYS is the word of a well-formed instruction of that row. -/
theorem exists_encode_of_selects {w : Word} : ∀ {i : Instr}, (∀ nnn, i ≠ .sys nnn) →
    w &&& i.row.1 = i.row.2 → ∃ j : Instr, j.wf = true ∧ j.row = i.row ∧ encode j = w
  | .cls, _, h => ⟨.cls, rfl, rfl, word_eq_of_fullMask h⟩
  | .scd _, _, h => ⟨.scd (fieldN w), rfl, rfl, word_eq_N h⟩
  | .ret, _, h => ⟨.ret, rfl, rfl, word_eq_of_fullMask h⟩
  | .scr, _, h => ⟨.scr, rfl, rfl, word_eq_of_fullMask h⟩
  | .scl, _, h => ⟨.scl, rfl, rfl, word_eq_of_fullMask h⟩
  | .low, _, h => ⟨.low, rfl, rfl, word_eq_of_fullMask h⟩
  | .high, _, h => ⟨.high, rfl, rfl, word_eq_of_fullMask h⟩
  | .sys nnn, hsys, _ => absurd rfl (hsys nnn)
  | .jp _, _, h => ⟨.jp (fieldNnn w), rfl, rfl, word_eq_NNN h⟩
  | .call _, _, h => ⟨.call (fieldNnn w), rfl, rfl, word_eq_NNN h⟩
  | .seImm _ _, _, h => ⟨.seImm (fieldX w) (fieldKk w), rfl, rfl, word_eq_XKK h⟩
  | .sneImm _ _, _, h => ⟨.sneImm (fieldX w) (fieldKk w), rfl, rfl, word_eq_XKK h⟩
  | .seReg _ _, _, h => ⟨.seReg (fieldX w) (fieldY w), rfl, rfl, word_eq_XY h⟩
  | .ldImm _ _, _, h => ⟨.ldImm (fieldX w) (fieldKk w), rfl, rfl, word_eq_XKK h⟩
  | .addImm _ _, _, h => ⟨.addImm (fieldX w) (fieldKk w), rfl, rfl, word_eq_XKK h⟩
  | .ldReg _ _, _, h => ⟨.ldReg (fieldX w) (fieldY w), rfl, rfl, word_eq_XY h⟩
  | .orReg _ _, _, h => ⟨.orReg (fieldX w) (fieldY w), rfl, rfl, word_eq_XY h⟩
  | .andReg _ _, _, h => ⟨.andReg (fieldX w) (fieldY w), rfl, rfl, word_eq_XY h⟩
  | .xorReg _ _, _, h => ⟨.xorReg (fieldX w) (fieldY w), rfl, rfl, word_eq_XY h⟩
  | .addReg _ _, _, h => ⟨.addReg (fieldX w) (fieldY w), rfl, rfl, word_eq_XY h⟩
  | .subReg _ _, _, h => ⟨.subReg (fieldX w) (fieldY w), rfl, rfl, word_eq_XY h⟩
  | .shr _ _, _, h => ⟨.shr (fieldX w) (fieldY w), rfl, rfl, word_eq_XY h⟩
  | .subnReg _ _, _, h => ⟨.subnReg (fieldX w) (fieldY w), rfl, rfl, word_eq_XY h⟩
  | .shl _ _, _, h => ⟨.shl (fieldX w) (fieldY w), rfl, rfl, word_eq_XY h⟩
  | .sneReg _ _, _, h => ⟨.sneReg (fieldX w) (fieldY w), rfl, rfl, word_eq_XY h⟩
  | .ldI _, _, h => ⟨.ldI (fieldNnn w), rfl, rfl, word_eq_NNN h⟩
  | .jpV0 _, _, h => ⟨.jpV0 (fieldNnn w), rfl, rfl, word_eq_NNN h⟩
  | .rnd _ _, _, h => ⟨.rnd (fieldX w) (fieldKk w), rfl, rfl, word_eq_XKK h⟩
  | .drw _ _ _, _, h => ⟨.drw (fieldX w) (fieldY w) (fieldN w), rfl, rfl, word_eq_XYN h⟩
  | .skp _, _, h => ⟨.skp (fieldX w), rfl, rfl, word_eq_X h⟩
  | .sknp _, _, h => ⟨.sknp (fieldX w), rfl, rfl, word_eq_X h⟩
  | .ldVxDt _, _, h => ⟨.ldVxDt (fieldX w), rfl, rfl, word_eq_X h⟩
  | .ldVxK _, _, h => ⟨.ldVxK (fieldX w), rfl, rfl, word_eq_X h⟩
  | .ldDtVx _, _, h => ⟨.ldDtVx (fieldX w), rfl, rfl, word_eq_X h⟩
  | .ldStVx _, _, h => ⟨.ldStVx (fieldX w), rfl, rfl, word_eq_X h⟩
  | .addI _, _, h => ⟨.addI (fieldX w), rfl, rfl, word_eq_X h⟩
  | .ldF _, _, h => ⟨.ldF (fieldX w), rfl, rfl, word_eq_X h⟩
  | .ldHf _, _, h => ⟨.ldHf (fieldX w), rfl, rfl, word_eq_X h⟩
  | .ldB _, _, h => ⟨.ldB (fieldX w), rfl, rfl, word_eq_X h⟩
  | .storeV _, _, h => ⟨.storeV (fieldX w), rfl, rfl, word_eq_X h⟩
  | .loadV _, _, h => ⟨.loadV (fieldX w), rfl, rfl, word_eq_X h⟩
  | .saveR _, _, h => ⟨.saveR (fieldX w), rfl, rfl, word_eq_X h⟩
  | .restoreR _, _, h => ⟨.restoreR (fieldX w), rfl, rfl, word_eq_X h⟩

/-! ### The families whose words are rejected by the low nibble, and those that reject none -/

theorem decodeLowNibble_error_iff (n : Nibble) (i : Instr) :
    (∃ e, decodeLowNibble Machine.Param.strictLowNibble n i = .error e) ↔ n ≠ 0 := by
  have hcond : (Machine.Param.strictLowNibble && n != 0) = true ↔ n ≠ 0 := by
    simp [Machine.Param.strictLowNibble]
  rw [← hcond, decodeLowNibble]
  split
  case isTrue h => exact iff_of_true ⟨_, rfl⟩ h
  case isFalse h => exact iff_of_false (fun ⟨_, he⟩ => nomatch he) h

theorem decodeWord_family5 (x y n : Nibble) : decodeWord (wordXYN 0x5 x y n) =
    decodeLowNibble Machine.Param.strictLowNibble n (.seReg x y) := by
  simp [decodeWord, fieldFam_XYN, fieldX_XYN, fieldY_XYN, fieldN_XYN]

theorem decodeWord_family9 (x y n : Nibble) : decodeWord (wordXYN 0x9 x y n) =
    decodeLowNibble Machine.Param.strictLowNibble n (.sneReg x y) := by
  simp [decodeWord, fieldFam_XYN, fieldX_XYN, fieldY_XYN, fieldN_XYN]

/-- Every arm of decode but those of families 5, 8, 9, E and F is an `.ok`. -/
theorem exists_decodeWord_of_fam {w : Word}
    (h : fieldFam w ∉ ([0x5, 0x8, 0x9, 0xE, 0xF] : List Nibble)) : ∃ i, decodeWord w = .ok i := by
  have hlt : (fieldFam w).toNat < 16 := (fieldFam w).isLt
  simp only [List.mem_cons, List.not_mem_nil, or_false, not_or, ← BitVec.toNat_inj,
    BitVec.reduceToNat] at h
  obtain ⟨h5, h8, h9, hE, hF⟩ := h
  unfold decodeWord
  split
  case h_6 hfam => exact absurd hfam h5
  case h_9 hfam => exact absurd hfam h8
  case h_10 hfam => exact absurd hfam h9
  case h_15 hfam => exact absurd hfam hE
  case h_16 =>
    simp only [imp_false] at *
    omega
  all_goals exact ⟨_, rfl⟩

/-- Settles O5: the round trip of the one instruction, and the bytes of a word make the word again. -/
theorem decodeOfEncodeIsTheInstruction : Obligations.DecodeOfEncodeIsTheInstruction := fun _ hwf =>
  ⟨decodeWord_encode hwf, decodeBytes_encodeBytes hwf⟩

/-- Settles O6: each family decodes to an instruction that encodes to the fields it was read from. -/
theorem encodeOfDecodeIsTheWord : Obligations.EncodeOfDecodeIsTheWord := fun _ _ => encode_of_decodeWord

/-- Settles O7: a decoded word is an encoding, which has the bits of its row; and a word with the bits
of a row is the encoding of an instruction of that row, which decode gives back. -/
theorem wordsSelectTheirRow : Obligations.WordsSelectTheirRow := by
  refine ⟨fun _ _ => selects_of_decodeWord, fun w i hsys hsel => ?_⟩
  obtain ⟨j, hwf, hrow, rfl⟩ := exists_encode_of_selects hsys hsel
  exact ⟨j, decodeWord_encode hwf, hrow⟩

/-- Settles O9: families 5 and 9 are decided by the low nibble, every other arm of decode but those of
8, E and F is an `.ok`. -/
theorem lowNibblesAndTotalFamilies : Obligations.LowNibblesAndTotalFamilies := by
  unfold Obligations.LowNibblesAndTotalFamilies
  simp only [decodeWord_family5, decodeWord_family9, decodeLowNibble_error_iff, implies_true, true_and]
  exact fun _ => exists_decodeWord_of_fam

/-- Settles O10: each word is closed, so decode evaluates. -/
theorem wordsOfTheSpecPrograms : Obligations.WordsOfTheSpecPrograms := by
  unfold Obligations.WordsOfTheSpecPrograms
  decide

end Sys2Proof
end

section
/-! The jumps, CALL and RET of 40_control_flow.md (R121, R122, R123, R128), and the stack policies of
10_state.md R30. -/

namespace Sys2Proof.Machine

/-! ### The arms of `exec` -/

theorem exec_jp (nnn : Addr12) (s : State) : exec (.jp nnn) s = .next { s with pc := zext12 nnn } := rfl

theorem exec_jpV0 (nnn : Addr12) (s : State) :
    exec (.jpV0 nnn) s = .next { s with pc := zext12 nnn + zext8 (s.getV 0) } := rfl

/-- STACK_LIMIT is unset, so the push of CALL succeeds (10_state.md R29). -/
theorem exec_call (nnn : Addr12) (s : State) :
    exec (.call nnn) s = .next { s with stack := s.stack ++ [s.pc], pc := zext12 nnn } := rfl

theorem pop_concat {s : State} {l : List Word} {a : Word} (h : s.stack = l ++ [a]) :
    pop s = .ok (a, { s with stack := l }) := by
  simp [pop, h]

theorem pop_empty {s : State} (h : s.stack = []) : pop s = .error .stackUnderflow := by
  simp [pop, h]

theorem exec_ret_concat {s : State} {l : List Word} {a : Word} (h : s.stack = l ++ [a]) :
    exec .ret s = .next { s with stack := l, pc := a } := by
  show execRet s = _
  rw [execRet, pop_concat h, orRaise_ok]

theorem exec_ret_empty {s : State} (h : s.stack = []) : exec .ret s = raise .stackUnderflow s := by
  show execRet s = _
  rw [execRet, pop_empty h, orRaise_error]

/-! ### The targets of the jumps -/

theorem toNat_zext8 (b : Byte) : (zext8 b).toNat = b.toNat :=
  BitVec.toNat_setWidth_of_le (by decide : 8 ≤ 16)

/-- The sum of a 12-bit and an 8-bit value fits in 16 bits, so PC does not wrap. -/
theorem toNat_zext12_add_zext8 (nnn : Addr12) (b : Byte) :
    (zext12 nnn + zext8 b).toNat = nnn.toNat + b.toNat := by
  have := nnn.isLt
  have := b.isLt
  rw [BitVec.toNat_add, toNat_zext12, toNat_zext8]
  omega

end Sys2Proof.Machine

namespace Sys2Proof

open Sys2Proof.Machine

/-- Settles O20: each jump overwrites PC, with a target below 2^16. -/
theorem jumpsSetOnlyPc : Obligations.JumpsSetOnlyPc := fun nnn s =>
  ⟨⟨_, exec_jp nnn s, rfl, toNat_zext12 nnn⟩,
    ⟨_, exec_jpV0 nnn s, rfl, toNat_zext12_add_zext8 nnn _⟩⟩

/-- Settles O21: the arm of CALL, whose push cannot overflow. -/
theorem callPushesTheReturnAddress : Obligations.CallPushesTheReturnAddress := exec_call

/-- Settles O22: RET by the last cell of the stack, or by its being empty. -/
theorem returnPopsTheNewestAddress : Obligations.ReturnPopsTheNewestAddress := fun _ =>
  ⟨fun _ _ => exec_ret_concat, exec_ret_empty⟩

/-- Settles O23: CALL leaves the stack of `s` with PC appended, which is what RET takes off. -/
theorem returnUndoesCall : Obligations.ReturnUndoesCall := by
  intro nnn s t u hcall hstack
  rw [exec_call] at hcall
  cases hcall
  exact exec_ret_concat hstack

/-- Settles O24: push by its test of the limit, pop by the last cell of the stack. -/
theorem stackPolicies : Obligations.StackPolicies := by
  intro limit w s
  refine ⟨?overflow, ?append, pop_empty, pop_concat rfl⟩
  case overflow => intro hfull; rw [push, if_pos hfull]
  case append => intro hroom; rw [push, if_neg hroom]

end Sys2Proof
end

section
/-! The arithmetic of 41_alu.md beyond the loads: the logic operations (R146 to R148), the four that
write VF as a flag with their shifts (R149 to R153), and RND (R154). -/

namespace Sys2Proof.Machine

/-! ### The arms of `exec` -/

theorem exec_orReg (x y : Nibble) (s : State) :
    exec (.orReg x y) s = .next (s.setV x (s.getV x ||| s.getV y)) := rfl

theorem exec_andReg (x y : Nibble) (s : State) :
    exec (.andReg x y) s = .next (s.setV x (s.getV x &&& s.getV y)) := rfl

theorem exec_xorReg (x y : Nibble) (s : State) :
    exec (.xorReg x y) s = .next (s.setV x (s.getV x ^^^ s.getV y)) := rfl

theorem exec_addReg (x y : Nibble) (s : State) : exec (.addReg x y) s =
    .next ((s.setV x (s.getV x + s.getV y)).setFlag (carryOf (s.getV x) (s.getV y))) := rfl

theorem exec_subReg (x y : Nibble) (s : State) : exec (.subReg x y) s =
    .next ((s.setV x (s.getV x - s.getV y)).setFlag (noBorrowOf (s.getV x) (s.getV y))) := rfl

theorem exec_subnReg (x y : Nibble) (s : State) : exec (.subnReg x y) s =
    .next ((s.setV x (s.getV y - s.getV x)).setFlag (noBorrowOf (s.getV y) (s.getV x))) := rfl

/-- SHIFT_SOURCE is Vx, so y has no part in it (41_alu.md R142). -/
theorem exec_shr (x y : Nibble) (s : State) : exec (.shr x y) s =
    .next ((s.setV x (s.getV x >>> 1)).setFlag (lowBitOf (s.getV x))) := rfl

theorem exec_shl (x y : Nibble) (s : State) : exec (.shl x y) s =
    .next ((s.setV x (s.getV x <<< 1)).setFlag (highBitOf (s.getV x))) := rfl

theorem exec_rnd (x : Nibble) (kk : Byte) (s : State) : exec (.rnd x kk) s =
    .next (({ s with draws := s.draws + 1 } : State).setV x (Config.rand s.draws &&& kk)) := rfl

/-! ### The frame of a register write with a flag -/

theorem State.setV_setFlag_keepsOtherVs (s : State) (x : Nibble) (b : Byte) (c : Bool) :
    OtherVsKept x s ((s.setV x b).setFlag c) := by
  intro j hx hF
  rw [State.getV_setFlag, if_neg hF, State.getV_setV_ne s b hx]

/-- The flag is written last, so Vx holds the result unless it is VF (41_alu.md R141). -/
theorem exists_setV_setFlag {r : Result} {s : State} {x : Nibble} {b : Byte} {c : Bool}
    (h : r = .next ((s.setV x b).setFlag c)) :
    ∃ t, r = .next t ∧ (x ≠ 0xF → t.getV x = b) ∧ t.getV 0xF = (if c then 1 else 0) ∧
      OtherVsKept x s t ∧ OnlyV s t := by
  have hresult : x ≠ 0xF → ((s.setV x b).setFlag c).getV x = b := fun hx => by
    rw [State.getV_setFlag, if_neg hx, State.getV_setV_same]
  exact ⟨_, h, hresult, State.getV_setFlag_flag _ c, State.setV_setFlag_keepsOtherVs s x b c,
    State.withV_onlyV s _⟩

/-- The same for a difference with its no-borrow flag, both as numbers. -/
theorem exists_difference {r : Result} {s : State} {x : Nibble} {a b : Byte}
    (h : r = .next ((s.setV x (a - b)).setFlag (noBorrowOf a b))) :
    ∃ t, r = .next t ∧ (x ≠ 0xF → (t.getV x).toNat = (a.toNat + 256 - b.toNat) % 256) ∧
      t.getV 0xF = (if a.toNat ≥ b.toNat then 1 else 0) ∧ OtherVsKept x s t ∧ OnlyV s t := by
  have hb := b.isLt
  obtain ⟨t, hexec, hv, hflag, hkept⟩ := exists_setV_setFlag h
  refine ⟨t, hexec, fun hx => ?difference, ?noBorrow, hkept⟩
  case difference => rw [hv hx, BitVec.toNat_sub]; omega
  case noBorrow => simpa only [noBorrowOf, decide_eq_true_eq] using hflag

/-! ### The flags as numbers -/

theorem toNat_ite_lowBitOf (b : Byte) : (if lowBitOf b then 1 else 0 : Byte).toNat = b.toNat % 2 := by
  rw [lowBitOf, BitVec.getLsbD, Nat.testBit_zero]
  split <;> simp_all

theorem toNat_ite_highBitOf (b : Byte) : (if highBitOf b then 1 else 0 : Byte).toNat = b.toNat / 128 := by
  have := b.isLt
  rw [highBitOf, BitVec.getLsbD, Nat.testBit_eq_decide_div_mod_eq]
  split <;> simp_all <;> omega

/-- A masked byte has no bit outside the mask. -/
theorem and_mask_and_compl (a m : Byte) : a &&& m &&& ~~~m = 0 := by
  rw [BitVec.and_assoc, BitVec.and_not_self]
  exact BitVec.and_zero

end Sys2Proof.Machine

namespace Sys2Proof

open Sys2Proof.Machine

/-- Settles O29: each answers with one register write, and the operations act on each bit alone. -/
theorem logicResultsBitByBit : Obligations.LogicResultsBitByBit := by
  intro x y s
  refine ⟨?orReg, ?andReg, ?xorReg⟩
  case orReg =>
    obtain ⟨t, hexec, hv, hkept⟩ := exists_setV (exec_orReg x y s)
    exact ⟨t, hexec, fun _ => by rw [hv, BitVec.getLsbD_or], hkept⟩
  case andReg =>
    obtain ⟨t, hexec, hv, hkept⟩ := exists_setV (exec_andReg x y s)
    exact ⟨t, hexec, fun _ => by rw [hv, BitVec.getLsbD_and], hkept⟩
  case xorReg =>
    obtain ⟨t, hexec, hv, hkept⟩ := exists_setV (exec_xorReg x y s)
    exact ⟨t, hexec, fun _ => by rw [hv, BitVec.getLsbD_xor], hkept⟩

/-- Settles O30: a register write and the carry, as `exists_setV_setFlag` gives them. -/
theorem addSetsTheCarry : Obligations.AddSetsTheCarry := by
  intro x y s
  obtain ⟨t, hexec, hv, hflag, hkept⟩ := exists_setV_setFlag (exec_addReg x y s)
  refine ⟨t, hexec, fun hx => ?sum, ?carry, hkept⟩
  case sum => rw [hv hx, BitVec.toNat_add]
  case carry => simpa only [carryOf, decide_eq_true_eq] using hflag

/-- Settles O31: a difference with its no-borrow flag, each with its own operand first. -/
theorem subtractionsSetNoBorrow : Obligations.SubtractionsSetNoBorrow := fun x y s =>
  ⟨exists_difference (exec_subReg x y s), exists_difference (exec_subnReg x y s)⟩

/-- Settles O32: a register write and the bit shifted out, as `exists_setV_setFlag` gives them. -/
theorem shiftsMoveOneBit : Obligations.ShiftsMoveOneBit := by
  intro x y s
  refine ⟨?shr, ?shl⟩
  case shr =>
    obtain ⟨t, hexec, hv, hflag, hkept⟩ := exists_setV_setFlag (exec_shr x y s)
    refine ⟨t, hexec, fun hx => ?_, by rw [hflag, toNat_ite_lowBitOf], hkept⟩
    rw [hv hx, BitVec.toNat_ushiftRight, Nat.shiftRight_eq_div_pow]
  case shl =>
    obtain ⟨t, hexec, hv, hflag, hkept⟩ := exists_setV_setFlag (exec_shl x y s)
    refine ⟨t, hexec, fun hx => ?_, by rw [hflag, toNat_ite_highBitOf], hkept⟩
    rw [hv hx, BitVec.toNat_shiftLeft, Nat.shiftLeft_eq, Nat.mul_comm]

/-- Settles O33: one register write of the masked byte, on the state that has drawn it. -/
theorem randomByteIsMasked : Obligations.RandomByteIsMasked := by
  intro x kk s
  obtain ⟨t, hexec, hv, hkept, hframe, hmem⟩ := exists_setV (exec_rnd x kk s)
  refine ⟨t, hexec, hv, ?masked, ?zero, hkept, hframe, hmem⟩
  case masked => rw [hv, and_mask_and_compl]
  case zero => rintro rfl; exact hv.trans BitVec.and_zero

end Sys2Proof
end

section
/-! The instructions whose operand is a digit or a key index, checked against 0xF: LD F and LD HF
(42_index_memory.md R172 to R174), SKP and SKNP (44_keys_timers.md R220, R221, R226); with them ADD I
(R171) and the key wait (R222). -/

namespace Sys2Proof.Machine

/-! ### The arms of `exec` -/

theorem exec_addI (x : Nibble) (s : State) : exec (.addI x) s =
    .next (({ s with i := s.i + zext8 (s.getV x) } : State).setFlag (beyondMemory s.i (s.getV x))) := rfl

theorem exec_ldF_digit {x : Nibble} {s : State} (h : (s.getV x).toNat ≤ 0xF) :
    exec (.ldF x) s = .next { s with i := BitVec.ofNat 16 (5 * (s.getV x).toNat) } := by
  have hdigit : digitOf Param.operandRange (s.getV x) = .ok (s.getV x).toNat := if_pos h
  show execLdF x s = _
  rw [execLdF, hdigit, orRaise_ok, Config.fontSmallBase, Nat.zero_add]

theorem exec_ldHf_digit {x : Nibble} {s : State} (h : (s.getV x).toNat ≤ 0xF) :
    exec (.ldHf x) s = .next { s with i := BitVec.ofNat 16 (0x050 + 10 * (s.getV x).toNat) } := by
  have hdigit : digitOf Param.operandRange (s.getV x) = .ok (s.getV x).toNat := if_pos h
  show execLdHf x s = _
  rw [execLdHf, hdigit, orRaise_ok, Config.fontLargeBase]

/-- A byte that holds the index of a key is that key (44_keys_timers.md R226). -/
theorem keyOf_of_toNat_eq {b : Byte} {k : Nibble} (h : b.toNat = k.toNat) :
    keyOf Param.operandRange b = .ok k := by
  have hk : k.toNat < 16 := k.isLt
  have hkey : b.setWidth 4 = k := BitVec.eq_of_toNat_eq (by rw [BitVec.toNat_setWidth, h]; omega)
  rw [← hkey]
  exact if_pos (by omega)

theorem exec_skp_key {x k : Nibble} {s : State} (h : (s.getV x).toNat = k.toNat) :
    exec (.skp x) s = .next (s.skipIf (s.keyDown k)) := by
  show execSkp x s = _
  rw [execSkp, keyOf_of_toNat_eq h, orRaise_ok]

theorem exec_sknp_key {x k : Nibble} {s : State} (h : (s.getV x).toNat = k.toNat) :
    exec (.sknp x) s = .next (s.skipIf (!s.keyDown k)) := by
  show execSknp x s = _
  rw [execSknp, keyOf_of_toNat_eq h, orRaise_ok]

/-- The four instructions that check a byte against 0xF take the same fault on a greater one. -/
theorem exec_of_operandRange {x : Nibble} {s : State} (h : 0xF < (s.getV x).toNat) :
    ∀ i ∈ [Instr.ldF x, .ldHf x, .skp x, .sknp x], exec i s = raise (.operandRange (s.getV x)) s := by
  have hdigit : digitOf Param.operandRange (s.getV x) = .error (.operandRange (s.getV x)) :=
    if_neg (Nat.not_le.2 h)
  have hkey : keyOf Param.operandRange (s.getV x) = .error (.operandRange (s.getV x)) :=
    if_neg (Nat.not_le.2 h)
  simp [exec, execLdF, execLdHf, execSkp, execSknp, hdigit, hkey]

theorem exec_ldVxK_waits {s : State} (x : Nibble) (h : s.keyCount = 0) :
    exec (.ldVxK x) s = .next { s with pc := s.pc - 2 } := if_pos h

theorem exec_ldVxK_delivers {s : State} (x : Nibble) (h : s.keyCount ≠ 0) :
    exec (.ldVxK x) s = .next (s.setV x (s.lastKey.setWidth 8)) := if_neg h

/-! ### The values written to I and to VF -/

theorem toNat_add_zext8 (i : Word) (b : Byte) : (i + zext8 b).toNat = (i.toNat + b.toNat) % 65536 := by
  rw [BitVec.toNat_add, toNat_zext8]

theorem State.setFlag_keepsOtherVs (s : State) (c : Bool) : AllVsKeptBut 0xF s (s.setFlag c) :=
  State.setV_keepsOtherVs s 0xF _

end Sys2Proof.Machine

namespace Sys2Proof

open Sys2Proof.Machine

/-- Settles O36: the sum is taken with the old VF, and the flag is the one register written. -/
theorem addIKeepsSixteenBits : Obligations.AddIKeepsSixteenBits := by
  intro x s
  refine ⟨_, exec_addI x s, ?sum, ?flag, State.setFlag_keepsOtherVs _ _, rfl, fun _ => rfl⟩
  case sum => rw [State.setFlag_i, toNat_add_zext8]
  case flag =>
    refine (State.getV_setFlag_flag _ _).trans ?_
    simp only [beyondMemory, decide_eq_true_eq]

/-- Settles O37: the table entry of the digit, or the operand fault. -/
theorem glyphAddresses : Obligations.GlyphAddresses := by
  intro x s
  refine ⟨fun hdigit => ⟨?ldF, ?ldHf⟩, fun hrange => ?fault⟩
  case ldF =>
    refine ⟨_, exec_ldF_digit hdigit, rfl, ?_⟩
    rw [BitVec.toNat_ofNat]
    omega
  case ldHf =>
    refine ⟨_, exec_ldHf_digit hdigit, rfl, ?_⟩
    rw [BitVec.toNat_ofNat]
    omega
  case fault =>
    exact ⟨exec_of_operandRange hrange _ (by simp), exec_of_operandRange hrange _ (by simp)⟩

/-- Settles O51: a skip by the state of the key, or the operand fault. -/
theorem keySkips : Obligations.KeySkips := by
  intro x k s
  refine ⟨fun hkey => ⟨?skp, ?sknp⟩, fun hrange => ?fault⟩
  case skp => rw [exec_skp_key hkey, State.skipIf_eq]
  case sknp => rw [exec_sknp_key hkey, State.skipIf_eq]; cases s.keyDown k <;> rfl
  case fault =>
    exact ⟨exec_of_operandRange hrange _ (by simp), exec_of_operandRange hrange _ (by simp)⟩

/-- Settles O52: a register write of the last key, zero-extended, or the rewind of PC. -/
theorem keyWaitDeliversTheLastKey : Obligations.KeyWaitDeliversTheLastKey := by
  intro x s
  refine ⟨fun hdown => ?delivers, exec_ldVxK_waits x⟩
  obtain ⟨t, hexec, hv, hkept⟩ := exists_setV (exec_ldVxK_delivers (s := s) x hdown.ne')
  refine ⟨t, hexec, ?_, hkept⟩
  rw [hv, BitVec.toNat_setWidth_of_le (by decide : 4 ≤ 8)]

end Sys2Proof
end

section
/-! The memory instructions of 42_index_memory.md (R175 to R177), and the footprints of all four
instructions that read or write memory at I (20_memory.md R69). -/

namespace Sys2Proof.Machine

/-! ### The arms of `exec` on a footprint that fits, and on one that passes 0xFFF -/

theorem exec_ldB_fits {x : Nibble} {s : State} (h : s.i.toNat + 2 ≤ 0xFFF) :
    exec (.ldB x) s = .next { s with mem := s.mem.writeBytes s.i.toNat (bcdDigits (s.getV x)) } := by
  show execLdB x s = _
  rw [execLdB, State.store_fits s (by rw [bcdDigits_length, Config.memSize]; omega), orRaise_ok]

theorem exec_ldB_beyond {x : Nibble} {s : State} (h : 0xFFF < s.i.toNat + 2) :
    exec (.ldB x) s = raise (.outOfBounds (s.i.toNat + 2)) s := by
  show execLdB x s = _
  rw [execLdB, State.store_beyond s (by rw [bcdDigits_length, Config.memSize]; omega), orRaise_error]
  rfl

theorem exec_storeV_fits {x : Nibble} {s : State} (h : s.i.toNat + x.toNat ≤ 0xFFF) :
    exec (.storeV x) s = .next { s with mem := s.mem.writeBytes s.i.toNat (s.firstVs x) } := by
  show execStoreV x s = _
  rw [execStoreV, State.store_fits s (by rw [State.firstVs_length, Config.memSize]; omega), orRaise_ok]

theorem exec_storeV_beyond {x : Nibble} {s : State} (h : 0xFFF < s.i.toNat + x.toNat) :
    exec (.storeV x) s = raise (.outOfBounds (s.i.toNat + x.toNat)) s := by
  show execStoreV x s = _
  rw [execStoreV, State.store_beyond s (by rw [State.firstVs_length, Config.memSize]; omega),
    orRaise_error, State.firstVs_length]
  rfl

theorem exec_loadV_fits {x : Nibble} {s : State} (h : s.i.toNat + x.toNat ≤ 0xFFF) :
    exec (.loadV x) s = .next (s.setFirstVs x (s.mem.readBytes s.i.toNat (x.toNat + 1))) := by
  show execLoadV x s = _
  rw [execLoadV, State.load_fits s (by rw [Config.memSize]; omega), orRaise_ok]

theorem exec_loadV_beyond {x : Nibble} {s : State} (h : 0xFFF < s.i.toNat + x.toNat) :
    exec (.loadV x) s = raise (.outOfBounds (s.i.toNat + x.toNat)) s := by
  show execLoadV x s = _
  rw [execLoadV, State.load_beyond s (by rw [Config.memSize]; omega), orRaise_error]
  rfl

/-- The length that DRW passes to the load is the number of bytes of the sprite (43_display.md R196). -/
theorem spriteLen_eq_spriteBytes (n : Nibble) (m : DisplayMode) : spriteLen n m = spriteBytes n m := by
  unfold spriteLen spriteRows spriteBytesPerRow spriteBytes
  split_ifs <;> simp_all

theorem exec_drw_beyond {x y n : Nibble} {s : State} (h : 0xFFF < s.i.toNat + spriteBytes n s.mode - 1) :
    exec (.drw x y n) s = raise (.outOfBounds (s.i.toNat + spriteBytes n s.mode - 1)) s := by
  show execDrw x y n s = _
  rw [execDrw, spriteLen_eq_spriteBytes, State.load_beyond s h, orRaise_error]

/-! ### What the bytes of a store read as -/

theorem sameMemoryOutside_writeBytes {s : State} {a len : Nat} {bs : List Byte} (hwf : s.mem.wf)
    (hlen : bs.length = len) (hfit : a + len ≤ 0x1000) :
    SameMemoryOutside a len s { s with mem := s.mem.writeBytes a bs } := by
  subst hlen
  exact fun b hb => Memory.read_writeBytes_outside a b bs hfit hwf hb

theorem Memory.read_writeBytes_at {m : Memory} {a k : Nat} {bs : List Byte} (hwf : m.wf)
    (hfit : a + bs.length ≤ 0x1000) (hk : k < bs.length) :
    (m.writeBytes a bs).read (a + k) = bs.getD k 0 := by
  rw [Memory.read_writeBytes a _ bs hfit hwf, if_pos (by omega), Nat.add_sub_cancel_left]

theorem toNat_bcdDigits (b : Byte) :
    ((bcdDigits b).getD 0 0).toNat = b.toNat / 100 ∧ ((bcdDigits b).getD 1 0).toNat = b.toNat / 10 % 10 ∧
      ((bcdDigits b).getD 2 0).toNat = b.toNat % 10 := by
  have := b.isLt
  simp only [bcdDigits, List.getD_cons_zero, List.getD_cons_succ, BitVec.toNat_ofNat]
  omega

end Sys2Proof.Machine

namespace Sys2Proof

open Sys2Proof.Machine

/-- Settles O18: the footprint check fails before any byte is read or written. -/
theorem footprintBeyondMemoryHasNoEffect : Obligations.FootprintBeyondMemoryHasNoEffect := fun _ _ _ _ =>
  ⟨exec_ldB_beyond, fun h => ⟨exec_storeV_beyond h, exec_loadV_beyond h⟩, exec_drw_beyond⟩

/-- Settles O38: the three digits are a run of three bytes at I. -/
theorem bcdDigitsAreStored : Obligations.BcdDigitsAreStored := by
  intro x s hwf hi
  have hfit : s.i.toNat + (bcdDigits (s.getV x)).length ≤ 0x1000 := by rw [bcdDigits_length]; omega
  obtain ⟨hhundreds, htens, hones⟩ := toNat_bcdDigits (s.getV x)
  refine ⟨_, exec_ldB_fits (by omega), rfl, ?_, ?_, ?_, sameMemoryOutside_writeBytes hwf rfl hfit⟩
  · exact (congrArg BitVec.toNat (Memory.read_writeBytes_at (k := 0) hwf hfit (by simp))).trans hhundreds
  · exact (congrArg BitVec.toNat (Memory.read_writeBytes_at hwf hfit (by simp))).trans htens
  · exact (congrArg BitVec.toNat (Memory.read_writeBytes_at hwf hfit (by simp))).trans hones

/-- Settles O39: V0 to Vx are a run of x + 1 bytes at I, whose byte j is Vj. -/
theorem blockStoreWritesV0ToVx : Obligations.BlockStoreWritesV0ToVx := by
  intro x s
  refine ⟨fun hwf hi => ?store, exec_storeV_beyond⟩
  have hfit : s.i.toNat + (s.firstVs x).length ≤ 0x1000 := by rw [State.firstVs_length]; omega
  refine ⟨_, exec_storeV_fits hi, rfl, fun j hj => ?_,
    sameMemoryOutside_writeBytes hwf (State.firstVs_length s x) (by omega)⟩
  rw [Memory.read_writeBytes_at hwf hfit (by rw [State.firstVs_length]; omega), State.firstVs_getD s x j hj]

/-- Settles O40: the x + 1 bytes at I are loaded, byte j into Vj. -/
theorem blockLoadReadsV0ToVx : Obligations.BlockLoadReadsV0ToVx := by
  intro x s
  refine ⟨fun hi => ?load, exec_loadV_beyond⟩
  refine ⟨_, exec_loadV_fits hi, State.withV_onlyV s _, fun j => ?_⟩
  rw [State.getV_setFirstVs]
  split
  case isTrue hj => exact Memory.readBytes_getD _ _ _ _ (by omega)
  case isFalse => rfl

end Sys2Proof
end

section
/-! The scrolls and the mode switches of 43_display.md (R191 to R195, R202). -/

namespace Sys2Proof.Machine

/-! ### The arms of `exec` -/

theorem exec_scd (n : Nibble) (s : State) : exec (.scd n) s = .next { s with
    disp := Display.ofFn s.mode fun x y => decide (n.toNat ≤ y) && s.disp.get x (y - n.toNat) } := rfl

theorem exec_scr (s : State) : exec .scr s = .next { s with
    disp := Display.ofFn s.mode fun x y => decide (4 ≤ x) && s.disp.get (x - 4) y } := rfl

theorem exec_scl (s : State) : exec .scl s = .next { s with
    disp := Display.ofFn s.mode fun x y => decide (x + 4 < s.mode.width) && s.disp.get (x + 4) y } := rfl

theorem exec_low (s : State) :
    exec .low s = .next { s with mode := .legacy, disp := Display.clear .legacy } := rfl

theorem exec_high (s : State) :
    exec .high s = .next { s with mode := .extended, disp := Display.clear .extended } := rfl

/-! ### A buffer written cell by cell -/

/-- An instruction that writes the buffer alone, cell by cell, leaves in each cell what it writes. -/
theorem exists_dispOfFn {r : Result} {s : State} {f g : Nat → Nat → Bool}
    (h : r = .next { s with disp := Display.ofFn s.mode f })
    (hcell : ∀ x < s.mode.width, ∀ y < s.mode.height, f x y = g x y) :
    ∃ t, r = .next t ∧ t = { s with disp := t.disp } ∧ SameMemory s t ∧ t.disp.fits s.mode ∧
      ∀ x < s.mode.width, ∀ y < s.mode.height, t.disp.get x y = g x y :=
  ⟨_, h, rfl, State.withDisp_sameMemory s _, Display.ofFn_fits _ _, fun x hx y hy =>
    (Display.get_ofFn_inside f hx hy).trans (hcell x hx y hy)⟩

/-! ### The cells that each scroll leaves -/

theorem decide_and_eq_ite {p q : Prop} [Decidable p] [Decidable q] (h : q ↔ ¬ p) (b : Bool) :
    (decide q && b) = if p then false else b := by
  by_cases hp : p
  · rw [decide_eq_false fun hq => h.1 hq hp, Bool.false_and, if_pos hp]
  · rw [decide_eq_true (h.2 hp), Bool.true_and, if_neg hp]

theorem exists_scd (n : Nibble) (s : State) : ∃ t, exec (.scd n) s = .next t ∧
    t = { s with disp := t.disp } ∧ SameMemory s t ∧ t.disp.fits s.mode ∧
    ∀ x < s.mode.width, ∀ y < s.mode.height,
      t.disp.get x y = if y < n.toNat then false else s.disp.get x (y - n.toNat) := by
  exact exists_dispOfFn (exec_scd n s) fun _ _ _ _ => decide_and_eq_ite (by omega) _

theorem exists_scr (s : State) : ∃ t, exec .scr s = .next t ∧
    t = { s with disp := t.disp } ∧ SameMemory s t ∧ t.disp.fits s.mode ∧
    ∀ x < s.mode.width, ∀ y < s.mode.height,
      t.disp.get x y = if x < 4 then false else s.disp.get (x - 4) y := by
  exact exists_dispOfFn (exec_scr s) fun _ _ _ _ => decide_and_eq_ite (by omega) _

theorem exists_scl (s : State) : ∃ t, exec .scl s = .next t ∧
    t = { s with disp := t.disp } ∧ SameMemory s t ∧ t.disp.fits s.mode ∧
    ∀ x < s.mode.width, ∀ y < s.mode.height,
      t.disp.get x y = if x + 4 < s.mode.width then s.disp.get (x + 4) y else false := by
  refine exists_dispOfFn (exec_scl s) fun x _ y _ => ?_
  split
  case isTrue hx => rw [decide_eq_true hx, Bool.true_and]
  case isFalse hx => rw [decide_eq_false hx, Bool.false_and]

theorem cells_of_scr {s t : State} (h : exec .scr s = .next t) :
    t.mode = s.mode ∧ ∀ x < s.mode.width, ∀ y < s.mode.height,
      t.disp.get x y = if x < 4 then false else s.disp.get (x - 4) y := by
  obtain ⟨t', ht', hframe, -, -, hcell⟩ := exists_scr s
  cases h.symm.trans ht'
  exact ⟨by rw [hframe], hcell⟩

theorem cells_of_scl {s t : State} (h : exec .scl s = .next t) :
    t.mode = s.mode ∧ ∀ x < s.mode.width, ∀ y < s.mode.height,
      t.disp.get x y = if x + 4 < s.mode.width then s.disp.get (x + 4) y else false := by
  obtain ⟨t', ht', hframe, -, -, hcell⟩ := exists_scl s
  cases h.symm.trans ht'
  exact ⟨by rw [hframe], hcell⟩

end Sys2Proof.Machine

namespace Sys2Proof

open Sys2Proof.Machine

/-- Settles O45: each scroll writes the buffer alone, cell by cell. -/
theorem scrollsMoveEveryCell : Obligations.ScrollsMoveEveryCell := fun n s =>
  ⟨exists_scd n s, exists_scr s, exists_scl s⟩

/-- Settles O46: a cell of the second scroll is read 4 columns away, where the first scroll put the
old cell, unless that column is past the edge. -/
theorem scrollRoundTrip : Obligations.ScrollRoundTrip := by
  intro s t u
  refine ⟨fun hright hleft x hx y hy => ?rightLeft, fun hleft hright x hx y hy => ?leftRight⟩
  case rightLeft =>
    obtain ⟨hmode, ht⟩ := cells_of_scr hright
    obtain ⟨-, hu⟩ := cells_of_scl hleft
    rw [hmode] at hu
    rw [hu x hx y hy]
    split
    case isTrue hin => rw [ht _ hin y hy, if_neg (by omega), Nat.add_sub_cancel]
    case isFalse => rfl
  case leftRight =>
    obtain ⟨hmode, ht⟩ := cells_of_scl hleft
    obtain ⟨-, hu⟩ := cells_of_scr hright
    rw [hmode] at hu
    rw [hu x hx y hy]
    split
    case isTrue => rfl
    case isFalse hin => rw [ht _ (by omega) y hy, if_pos (by omega), Nat.sub_add_cancel (by omega)]

/-- Settles O47: each switch writes its mode and the clear buffer of that mode. -/
theorem modeSwitchesClear : Obligations.ModeSwitchesClear := fun s =>
  ⟨⟨_, exec_low s, rfl, fun _ => rfl, Display.clear_fits .legacy, Display.get_clear .legacy⟩,
    ⟨_, exec_high s, rfl, fun _ => rfl, Display.clear_fits .extended, Display.get_clear .extended⟩⟩

end Sys2Proof
end

section
/-! The sprite draw of 43_display.md R196 to R200. What DRW answers is said in terms of
`State.spriteOver`, the sprite bit over a cell: each cell is XORed with it, and the flag tells whether
it lies over a lit cell anywhere. -/

namespace Sys2Proof.Machine

/-! ### The bytes of the sprite, over the cells of the buffer -/

/-- The bit of column c in row r, in a run of bytes read from memory that holds the row whole. -/
theorem spriteBit_readBytes {m : Memory} {a len bpr c r : Nat} (h : bpr * r + c / 8 < len) :
    spriteBit bpr (m.readBytes a len) c r = (m.read (a + (bpr * r + c / 8))).getLsbD (7 - c % 8) := by
  rw [spriteBit, Memory.readBytes_getD m a len _ h]

theorem decide_and_congr {p : Prop} [Decidable p] {a b : Bool} (h : p → a = b) :
    (decide p && a) = (decide p && b) := by
  by_cases hp : p
  · rw [h hp]
  · rw [decide_eq_false hp, Bool.false_and, Bool.false_and]

/-- On the bytes that the load reads, the model's `spriteCovers` is `State.spriteOver`. -/
theorem spriteCovers_eq_spriteOver (s : State) (x y n : Nibble) (cx cy : Nat) :
    spriteCovers (spriteBytesPerRow n s.mode) (spriteRows n)
      (s.mem.readBytes s.i.toNat (spriteLen n s.mode))
      ((s.getV x).toNat % s.mode.width) ((s.getV y).toNat % s.mode.height) cx cy =
    s.spriteOver x y n cx cy := by
  unfold State.spriteOver spriteCovers
  generalize (s.getV x).toNat % s.mode.width = x0
  generalize (s.getV y).toNat % s.mode.height = y0
  by_cases hwide : n = 0 ∧ s.mode = .extended
  case pos =>
    have hrows : spriteRows n = 16 := if_pos hwide.1
    have hbpr : spriteBytesPerRow n s.mode = 2 := if_pos hwide
    simp only [spriteLen, hrows, hbpr, if_pos hwide.1, decide_eq_true hwide, if_true]
    refine decide_and_congr fun ⟨hx, hx', hy, hy'⟩ => ?_
    rw [spriteBit_readBytes (by omega), Nat.add_assoc]
  case neg =>
    have hrows : spriteRows n = if n = 0 then 16 else n.toNat := rfl
    have hbpr : spriteBytesPerRow n s.mode = 1 := if_neg hwide
    simp only [spriteLen, ← hrows, hbpr, decide_eq_false hwide, Bool.false_eq_true, if_false]
    refine decide_and_congr fun ⟨hx, hx', hy, hy'⟩ => ?_
    have hcol : (cx - x0) / 8 = 0 := by omega
    rw [spriteBit_readBytes (by omega), hcol, Nat.mod_eq_of_lt (by omega), Nat.one_mul, Nat.add_zero]

/-- Row by row and column by column is cell by cell: the collision is a lit cell under a sprite bit. -/
theorem drawCollides_iff_covers (m : DisplayMode) (d : Display) (bpr rows : Nat) (bytes : List Byte)
    (x0 y0 : Nat) :
    drawCollides m d bpr rows bytes x0 y0 = true ↔ ∃ cx < m.width, ∃ cy < m.height,
      d.get cx cy = true ∧ spriteCovers bpr rows bytes x0 y0 cx cy = true := by
  rw [drawCollides_iff]
  constructor
  · rintro ⟨r, hr, c, hc, hy, hx, hbit, hlit⟩
    refine ⟨x0 + c, hx, y0 + r, hy, hlit, ?_⟩
    rw [spriteCovers, decide_eq_true (by omega), Bool.true_and, Nat.add_sub_cancel_left,
      Nat.add_sub_cancel_left, hbit]
  · rintro ⟨cx, hx, cy, hy, hlit, hcovers⟩
    rw [spriteCovers, Bool.and_eq_true, decide_eq_true_eq] at hcovers
    obtain ⟨⟨hx0, hcx, hy0, hcy⟩, hbit⟩ := hcovers
    have hcol : x0 + (cx - x0) = cx := by omega
    have hrow : y0 + (cy - y0) = cy := by omega
    exact ⟨cy - y0, by omega, cx - x0, by omega, by omega, by omega, hbit, by rw [hcol, hrow, hlit]⟩

/-! ### The arm of `exec` -/

/-- The buffer with the sprite XORed into it (43_display.md R200). -/
def State.dispXorSprite (s : State) (x y n : Nibble) : Display :=
  Display.ofFn s.mode fun cx cy => s.disp.get cx cy ^^ s.spriteOver x y n cx cy

/-- Whether a sprite bit lies over a lit cell (43_display.md R200). -/
def State.spriteHits (s : State) (x y n : Nibble) : Bool :=
  drawCollides s.mode s.disp (spriteBytesPerRow n s.mode) (spriteRows n)
    (s.mem.readBytes s.i.toNat (spriteLen n s.mode))
    ((s.getV x).toNat % s.mode.width) ((s.getV y).toNat % s.mode.height)

theorem State.spriteHits_iff (s : State) (x y n : Nibble) : s.spriteHits x y n = true ↔
    ∃ cx < s.mode.width, ∃ cy < s.mode.height,
      s.disp.get cx cy = true ∧ s.spriteOver x y n cx cy = true := by
  simp only [State.spriteHits, drawCollides_iff_covers, spriteCovers_eq_spriteOver]

theorem State.get_dispXorSprite (s : State) (x y n : Nibble) {cx cy : Nat} (hx : cx < s.mode.width)
    (hy : cy < s.mode.height) : (s.dispXorSprite x y n).get cx cy =
      (s.disp.get cx cy ^^ s.spriteOver x y n cx cy) :=
  Display.get_ofFn_inside _ hx hy

theorem State.spriteOver_congr {s t : State} {x y n : Nibble} (hi : t.i = s.i) (hmem : t.mem = s.mem)
    (hmode : t.mode = s.mode) (hx : t.getV x = s.getV x) (hy : t.getV y = s.getV y) :
    t.spriteOver x y n = s.spriteOver x y n := by
  funext cx cy
  simp only [State.spriteOver, hi, hmem, hmode, hx, hy]

theorem exec_drw_fits {x y n : Nibble} {s : State} (h : s.i.toNat + spriteBytes n s.mode - 1 ≤ 0xFFF) :
    exec (.drw x y n) s = .next
      (({ s with disp := s.dispXorSprite x y n } : State).setFlag (s.spriteHits x y n)) := by
  have hload := s.load_fits (a := s.i.toNat) (len := spriteLen n s.mode)
    (by rw [spriteLen_eq_spriteBytes, Config.memSize]; omega)
  show execDrw x y n s = _
  rw [execDrw, hload, orRaise_ok]
  simp only [drawSprite, spriteCovers_eq_spriteOver]
  rfl

/-! ### The spec's loops, cell by cell -/

/-- What a state of the loops holds once the cells of `P` have been plotted on `d`: those cells turned
over, and VF set iff a lit one was among them. -/
def Plotted (m : DisplayMode) (d : Display) (P : Nat → Nat → Bool) (acc : Display × Bool) : Prop :=
  acc.1 = Display.ofFn m (fun x y => d.get x y ^^ P x y) ∧
    (acc.2 = true ↔ ∃ x < m.width, ∃ y < m.height, d.get x y = true ∧ P x y = true)

/-- Only the cells of the buffer count. -/
theorem Display.ofFn_congr {m : DisplayMode} {f g : Nat → Nat → Bool}
    (h : ∀ x < m.width, ∀ y < m.height, f x y = g x y) : Display.ofFn m f = Display.ofFn m g :=
  Display.ext (Display.ofFn_fits m f) (Display.ofFn_fits m g) fun x y hx hy => by
    rw [Display.get_ofFn_inside f hx hy, Display.get_ofFn_inside g hx hy, h x hx y hy]

theorem Plotted.congr {m : DisplayMode} {d : Display} {P Q : Nat → Nat → Bool} {acc : Display × Bool}
    (hacc : Plotted m d P acc) (h : ∀ x < m.width, ∀ y < m.height, P x y = Q x y) :
    Plotted m d Q acc := by
  obtain ⟨hdisp, hflag⟩ := hacc
  refine ⟨hdisp.trans (Display.ofFn_congr fun x hx y hy => by rw [h x hx y hy]), hflag.trans ?_⟩
  refine exists_congr fun x => and_congr_right fun hx => exists_congr fun y => and_congr_right fun hy => ?_
  rw [h x hx y hy]

theorem Plotted.none {m : DisplayMode} {d : Display} (h : d.fits m) :
    Plotted m d (fun _ _ => false) (d, false) := by
  refine ⟨?_, by simp⟩
  simp only [Bool.xor_false]
  exact (Display.ofFn_get h).symm

theorem plotPixel_eq (m : DisplayMode) (x y : Nat) (acc : Display × Bool) : plotPixel m x y acc =
    (acc.1.setCell m x y (!acc.1.get x y), acc.2 || acc.1.get x y) := by
  unfold plotPixel
  cases acc.1.get x y <;> simp

/-- The innermost lines plot one cell more. -/
theorem Plotted.plotPixel {m : DisplayMode} {d : Display} {P : Nat → Nat → Bool} {acc : Display × Bool}
    {x y : Nat} (hacc : Plotted m d P acc) (hx : x < m.width) (hy : y < m.height) (hnew : P x y = false) :
    Plotted m d (fun x' y' => P x' y' || decide (x' = x ∧ y' = y)) (plotPixel m x y acc) := by
  obtain ⟨disp, flag⟩ := acc
  obtain ⟨rfl, hflag⟩ := hacc
  have hget : (Display.ofFn m fun x y => d.get x y ^^ P x y).get x y = d.get x y := by
    rw [Display.get_ofFn_inside _ hx hy, hnew, Bool.xor_false]
  rw [plotPixel_eq, hget]
  refine ⟨Display.ofFn_congr fun x' hx' y' hy' => ?cell, ?flag⟩
  case cell =>
    split
    case isTrue heq => obtain ⟨rfl, rfl⟩ := heq; simp [hnew]
    case isFalse hne => simp [Display.get_ofFn_inside _ hx' hy', hne]
  case flag =>
    rw [Bool.or_eq_true, hflag]
    constructor
    · rintro (⟨x', hx', y', hy', hlit, hP⟩ | hlit)
      · exact ⟨x', hx', y', hy', hlit, by simp [hP]⟩
      · exact ⟨x, hx, y, hy, hlit, by simp⟩
    · rintro ⟨x', hx', y', hy', hlit, hor⟩
      rw [Bool.or_eq_true, decide_eq_true_eq] at hor
      rcases hor with hP | ⟨rfl, rfl⟩
      · exact .inl ⟨x', hx', y', hy', hlit, hP⟩
      · exact .inr hlit

/-- The cells under a sprite bit in the first r rows, and in the first k columns of row r. -/
def spriteCoversTo (bpr : Nat) (bytes : List Byte) (x0 y0 r k x y : Nat) : Bool :=
  spriteCovers bpr r bytes x0 y0 x y ||
    (decide (y = y0 + r ∧ x0 ≤ x ∧ x < x0 + k) && spriteBit bpr bytes (x - x0) r)

theorem spriteCoversTo_zero (bpr : Nat) (bytes : List Byte) (x0 y0 r x y : Nat) :
    spriteCoversTo bpr bytes x0 y0 r 0 x y = spriteCovers bpr r bytes x0 y0 x y := by
  rw [spriteCoversTo, decide_eq_false (by omega), Bool.false_and, Bool.or_false]

theorem spriteCoversTo_row (bpr : Nat) (bytes : List Byte) (x0 y0 r x y : Nat) :
    spriteCoversTo bpr bytes x0 y0 r (8 * bpr) x y = spriteCovers bpr (r + 1) bytes x0 y0 x y := by
  unfold spriteCoversTo spriteCovers
  by_cases hrow : y = y0 + r
  · subst hrow
    rw [Nat.add_sub_cancel_left, decide_eq_false (by omega), Bool.false_and, Bool.false_or]
    exact congrArg (· && _) (decide_eq_decide.2 (by omega))
  · have hoff : ¬ (y = y0 + r ∧ x0 ≤ x ∧ x < x0 + 8 * bpr) := fun h => hrow h.1
    rw [decide_eq_false hoff, Bool.false_and, Bool.or_false]
    exact congrArg (· && _) (decide_eq_decide.2 (by omega))

/-- Column k of row r adds its own cell, if its bit is set, which no earlier one has plotted. -/
theorem spriteCoversTo_succ (bpr : Nat) (bytes : List Byte) (x0 y0 r k x y : Nat) :
    spriteCoversTo bpr bytes x0 y0 r (k + 1) x y =
      (spriteCoversTo bpr bytes x0 y0 r k x y ||
        (decide (x = x0 + k ∧ y = y0 + r) && spriteBit bpr bytes k r)) := by
  unfold spriteCoversTo
  rw [Bool.or_assoc]
  congr 1
  by_cases hcell : x = x0 + k ∧ y = y0 + r
  · obtain ⟨rfl, rfl⟩ := hcell
    rw [Nat.add_sub_cancel_left, decide_eq_true (by omega), decide_eq_false (by omega),
      decide_eq_true ⟨rfl, rfl⟩, Bool.false_and, Bool.false_or]
  · rw [decide_eq_false hcell, Bool.false_and, Bool.or_false]
    exact congrArg (· && _) (decide_eq_decide.2 (by omega))

theorem spriteCoversTo_new (bpr : Nat) (bytes : List Byte) (x0 y0 r k : Nat) :
    spriteCoversTo bpr bytes x0 y0 r k (x0 + k) (y0 + r) = false := by
  rw [spriteCoversTo, spriteCovers, decide_eq_false (by omega), decide_eq_false (by omega),
    Bool.false_and, Bool.false_and, Bool.or_false]

/-- A loop over 0 .. n-1 keeps what each of its passes takes from k to k + 1. -/
theorem foldl_range_of_step {α : Type} {f : α → Nat → α} {motive : Nat → α → Prop} {a : α}
    (hzero : motive 0 a) (hstep : ∀ k acc, motive k acc → motive (k + 1) (f acc k)) (n : Nat) :
    motive n ((List.range n).foldl f a) := by
  induction n with
  | zero => exact hzero
  | succ n ih =>
    rw [List.range_succ, List.foldl_append, List.foldl_cons, List.foldl_nil]
    exact hstep n _ ih

/-- The row's loop, by the number of columns done. -/
theorem Plotted.drawRowLoop {m : DisplayMode} {d : Display} {bpr : Nat} {bytes : List Byte}
    {x0 y0 r : Nat} {acc : Display × Bool} (hacc : Plotted m d (spriteCovers bpr r bytes x0 y0) acc)
    (hrow : y0 + r < m.height) :
    Plotted m d (spriteCovers bpr (r + 1) bytes x0 y0) (drawRowLoop m bpr bytes x0 y0 r acc) := by
  refine Plotted.congr ?_ fun x _ y _ => spriteCoversTo_row bpr bytes x0 y0 r x y
  refine foldl_range_of_step (motive := fun k => Plotted m d (spriteCoversTo bpr bytes x0 y0 r k))
    (hacc.congr fun x _ y _ => (spriteCoversTo_zero bpr bytes x0 y0 r x y).symm) (fun k acc ih => ?_) _
  split
  case isTrue hout =>
    refine ih.congr fun x hx y hy => ?_
    rw [spriteCoversTo_succ, decide_eq_false (by omega), Bool.false_and, Bool.or_false]
  case isFalse hin =>
    split
    case isTrue hbit =>
      refine (ih.plotPixel (by omega) hrow (spriteCoversTo_new bpr bytes x0 y0 r k)).congr
        fun x hx y hy => ?_
      rw [spriteCoversTo_succ, hbit, Bool.and_true]
    case isFalse hbit =>
      refine ih.congr fun x hx y hy => ?_
      rw [spriteCoversTo_succ, Bool.eq_false_of_not_eq_true hbit, Bool.and_false, Bool.or_false]

/-- The sprite's loop, by the number of rows done. -/
theorem Plotted.drawLoop {m : DisplayMode} {d : Display} (hfits : d.fits m) (bpr rows : Nat)
    (bytes : List Byte) (x0 y0 : Nat) :
    Plotted m d (spriteCovers bpr rows bytes x0 y0) (drawLoop m d bpr rows bytes x0 y0) := by
  refine foldl_range_of_step (motive := fun r => Plotted m d (spriteCovers bpr r bytes x0 y0))
    ?none (fun r acc ih => ?row) rows
  case none =>
    refine (Plotted.none hfits).congr fun x _ y _ => ?_
    rw [spriteCovers, decide_eq_false (by omega), Bool.false_and]
  case row =>
    split
    case isTrue hout =>
      refine ih.congr fun x hx y hy => ?_
      exact congrArg (· && _) (decide_eq_decide.2 (by omega))
    case isFalse hin => exact ih.drawRowLoop (by omega)

end Sys2Proof.Machine

namespace Sys2Proof

open Sys2Proof.Machine

/-- Settles O48: the XORed buffer and the flag of a hit are what `exec_drw_fits` says. -/
theorem drawXorsAndFlagsCollision : Obligations.DrawXorsAndFlagsCollision := by
  intro x y n s hfit
  refine ⟨_, exec_drw_fits hfit, rfl, fun _ => rfl, State.setFlag_keepsOtherVs _ _,
    Display.ofFn_fits _ _, fun cx hx cy hy => State.get_dispXorSprite s x y n hx hy,
    fun hhit => ?hit, fun hmiss => ?miss⟩
  case hit =>
    rw [(State.spriteHits_iff s x y n).2 hhit]
    exact State.getV_setFlag_flag _ true
  case miss =>
    have hnone : s.spriteHits x y n = false := by
      rw [← Bool.not_eq_true, State.spriteHits_iff]
      rintro ⟨cx, hx, cy, hy, hlit, hover⟩
      exact absurd (hmiss cx hx cy hy hlit) (ne_false_of_eq_true hover)
    rw [hnone]
    exact State.getV_setFlag_flag _ false

/-- Settles O49: the second draw covers the same cells, since it has the same coordinates, I, memory
and mode; XORed twice a cell is as before, and a hit is a cell that the first draw lit. -/
theorem drawTwiceRestoresTheBuffer : Obligations.DrawTwiceRestoresTheBuffer := by
  intro x y n s t u hfits hbytes hfirst hx hy hsecond
  rw [exec_drw_fits hbytes, Host.Outcome.next.injEq] at hfirst
  obtain ⟨hdisp, hi, hmem, hmode⟩ : t.disp = s.dispXorSprite x y n ∧ t.i = s.i ∧ t.mem = s.mem ∧
      t.mode = s.mode := by subst hfirst; exact ⟨rfl, rfl, rfl, rfl⟩
  have hover : t.spriteOver x y n = s.spriteOver x y n := State.spriteOver_congr hi hmem hmode hx hy
  have hcell : ∀ cx < s.mode.width, ∀ cy < s.mode.height,
      t.disp.get cx cy = (s.disp.get cx cy ^^ s.spriteOver x y n cx cy) := fun cx hcx cy hcy => by
    rw [hdisp, State.get_dispXorSprite s x y n hcx hcy]
  rw [exec_drw_fits (by rw [hi, hmode]; exact hbytes), Host.Outcome.next.injEq] at hsecond
  have hflag : u.getV 0xF = if t.spriteHits x y n then 1 else 0 := by
    subst hsecond
    exact State.getV_setFlag_flag _ _
  refine ⟨?buffer, ?hit, ?flag⟩
  case buffer =>
    have hudisp : u.disp = t.dispXorSprite x y n := by subst hsecond; rfl
    have hufits : u.disp.fits s.mode := by
      rw [hudisp, ← hmode]
      exact Display.ofFn_fits _ _
    refine Display.ext hufits hfits fun cx cy hcx hcy => ?_
    rw [hudisp, State.get_dispXorSprite t x y n (hmode ▸ hcx) (hmode ▸ hcy), hover, hcell cx hcx cy hcy,
      Bool.xor_assoc, Bool.xor_self, Bool.xor_false]
  case hit =>
    have hone : u.getV 0xF = 1 ↔ t.spriteHits x y n = true := by
      rw [hflag]
      cases t.spriteHits x y n <;> decide
    rw [hone, State.spriteHits_iff, hmode, hover]
    refine exists_congr fun cx => and_congr_right fun hcx => exists_congr fun cy =>
      and_congr_right fun hcy => ?_
    rw [hcell cx hcx cy hcy]
    cases s.disp.get cx cy <;> simp
  case flag =>
    rw [hflag]
    cases t.spriteHits x y n with
    | false => exact .inl rfl
    | true => exact .inr rfl

/-- Settles O50: the loops have plotted the cells of the sprite, each once. -/
theorem drawEqualsThePseudocodeLoops : Obligations.DrawEqualsThePseudocodeLoops := by
  intro m d bpr rows bytes x0 y0 hfits
  obtain ⟨hdisp, hflag⟩ := Plotted.drawLoop hfits bpr rows bytes x0 y0
  refine Prod.ext hdisp (Bool.eq_iff_iff.2 ?_)
  rw [hflag, drawCollides_iff_covers]

end Sys2Proof
end

section
/-! What an instruction can do, said once: `Effect s i t` lists, by the components that are written,
every state `t` that `i` can lead to from `s`, and `Raises s i f` every fault it can raise. Which
component an instruction writes, which fault it raises, and the invariant are read off these lists. -/

namespace Sys2Proof.Machine

/-- Which instruction raises which fault, and when (60_exceptions.md R260). -/
inductive Raises (s : State) : Instr → Fault → Prop
  | underflow : s.stack = [] → Raises s .ret .stackUnderflow
  | operand {i : Instr} {x : Nibble} : (i = .ldF x ∨ i = .ldHf x ∨ i = .skp x ∨ i = .sknp x) →
      0xF < (s.getV x).toNat → Raises s i (.operandRange (s.getV x))
  | digits {x : Nibble} : 0xFFF < s.i.toNat + 2 → Raises s (.ldB x) (.outOfBounds (s.i.toNat + 2))
  | block {i : Instr} {x : Nibble} : (i = .storeV x ∨ i = .loadV x) → 0xFFF < s.i.toNat + x.toNat →
      Raises s i (.outOfBounds (s.i.toNat + x.toNat))
  | sprite {x y n : Nibble} : 0xFFF < s.i.toNat + spriteBytes n s.mode - 1 →
      Raises s (.drw x y n) (.outOfBounds (s.i.toNat + spriteBytes n s.mode - 1))

/-- The instructions other than RET that write PC beyond the fetch. -/
def MovesPc (i : Instr) : Prop :=
  (∃ nnn, i = .jp nnn ∨ i = .call nnn ∨ i = .jpV0 nnn) ∨ (∃ x kk, i = .seImm x kk ∨ i = .sneImm x kk) ∨
    (∃ x y, i = .seReg x y ∨ i = .sneReg x y) ∨ ∃ x, i = .skp x ∨ i = .sknp x ∨ i = .ldVxK x

/-- All that an instruction can do, by the components it writes. -/
inductive Effect (s : State) : Instr → State → Prop
  | raised {i : Instr} {f : Fault} : Raises s i f → Effect s i { s with fault := some f }
  | nothing (nnn : Addr12) : Effect s (.sys nnn) s
  | wroteV {i : Instr} {v : Vector Byte 16} :
      (∀ j, writesV i j = false → ({ s with v := v } : State).getV j = s.getV j) →
      Effect s i { s with v := v }
  | wrotePc {i : Instr} {pc : Word} : MovesPc i → Effect s i { s with pc := pc }
  | popped {l : List Word} {a : Word} : s.stack = l ++ [a] →
      Effect s .ret { s with stack := l, pc := a }
  | pushed (nnn : Addr12) :
      Effect s (.call nnn) { s with stack := s.stack ++ [s.pc], pc := zext12 nnn }
  | wroteI {i : Instr} {a : Word} : ((∃ nnn, i = .ldI nnn) ∨ ∃ x, i = .ldF x ∨ i = .ldHf x) →
      Effect s i { s with i := a }
  | addedToI (x : Nibble) (a : Word) (c : Bool) :
      Effect s (.addI x) (({ s with i := a } : State).setFlag c)
  | wroteR (x : Nibble) : Effect s (.saveR x) { s with r := s.v }
  | wroteDt (x : Nibble) : Effect s (.ldDtVx x) { s with dt := s.getV x }
  | wroteSt (x : Nibble) : Effect s (.ldStVx x) { s with st := s.getV x }
  | wroteMem {i : Instr} (a : Nat) (bytes : List Byte) : (∃ x, i = .ldB x ∨ i = .storeV x) →
      Effect s i { s with mem := s.mem.writeBytes a bytes }
  | wroteDisp {i : Instr} (f : Nat → Nat → Bool) :
      (i = .cls ∨ i = .scr ∨ i = .scl ∨ ∃ n, i = .scd n) →
      Effect s i { s with disp := Display.ofFn s.mode f }
  | switched {i : Instr} (m : DisplayMode) : (i = .low ∨ i = .high) →
      Effect s i { s with mode := m, disp := Display.clear m }
  | drew (x y n : Nibble) (f : Nat → Nat → Bool) (c : Bool) :
      Effect s (.drw x y n) (({ s with disp := Display.ofFn s.mode f } : State).setFlag c)
  | drawn (x : Nibble) (kk b : Byte) :
      Effect s (.rnd x kk) (({ s with draws := s.draws + 1 } : State).setV x b)

/-! ### The shapes that several instructions share -/

section
variable {s : State} {i : Instr}

theorem Effect.setV {x : Nibble} {b : Byte} (h : ∀ j, writesV i j = (j == x)) :
    Effect s i (s.setV x b) :=
  .wroteV fun j hj => State.getV_setV_ne s b (ne_of_beq_false ((h j).symm.trans hj))

theorem Effect.setV_setFlag {x : Nibble} {b : Byte} {c : Bool}
    (h : ∀ j, writesV i j = (j == x || j == 0xF)) : Effect s i ((s.setV x b).setFlag c) := by
  refine .wroteV fun j hj => ?_
  obtain ⟨hx, hF⟩ := Bool.or_eq_false_iff.1 ((h j).symm.trans hj)
  exact State.setV_setFlag_keepsOtherVs s x b c j (ne_of_beq_false hx) (ne_of_beq_false hF)

theorem Effect.skip {c : Bool} (h : MovesPc i) : Effect s i (s.skipIf c) :=
  State.skipIf_eq s c ▸ .wrotePc h

/-- The four instructions that check a byte against 0xF answer by the arm for a digit or key, or by the
operand fault. -/
theorem exists_effect_of_operand {x : Nibble} (hi : i = .ldF x ∨ i = .ldHf x ∨ i = .skp x ∨ i = .sknp x)
    (h : (s.getV x).toNat ≤ 0xF → ∃ t, exec i s = .next t ∧ Effect s i t) :
    ∃ t, exec i s = .next t ∧ Effect s i t := by
  rcases Nat.lt_or_ge 0xF (s.getV x).toNat with hrange | hpass
  · exact ⟨_, exec_of_operandRange hrange i (by simpa using hi), .raised (.operand hi hrange)⟩
  · exact h hpass

end

/-! ### Every instruction has an effect -/

/-- Every instruction answers a next state, and what it does is listed. -/
theorem exists_effect (i : Instr) (s : State) : ∃ t, exec i s = .next t ∧ Effect s i t := by
  cases i with
  | cls => exact ⟨_, exec_cls s, .wroteDisp _ (.inl rfl)⟩
  | scd n => exact ⟨_, exec_scd n s, .wroteDisp _ (.inr (.inr (.inr ⟨n, rfl⟩)))⟩
  | ret =>
    rcases List.eq_nil_or_concat s.stack with hempty | ⟨l, a, hconcat⟩
    · exact ⟨_, exec_ret_empty hempty, .raised (.underflow hempty)⟩
    · rw [List.concat_eq_append] at hconcat
      exact ⟨_, exec_ret_concat hconcat, .popped hconcat⟩
  | scr => exact ⟨_, exec_scr s, .wroteDisp _ (.inr (.inl rfl))⟩
  | scl => exact ⟨_, exec_scl s, .wroteDisp _ (.inr (.inr (.inl rfl)))⟩
  | low => exact ⟨_, exec_low s, .switched _ (.inl rfl)⟩
  | high => exact ⟨_, exec_high s, .switched _ (.inr rfl)⟩
  | sys nnn => exact ⟨_, exec_sys nnn s, .nothing nnn⟩
  | jp nnn => exact ⟨_, exec_jp nnn s, .wrotePc (.inl ⟨nnn, .inl rfl⟩)⟩
  | call nnn => exact ⟨_, exec_call nnn s, .pushed nnn⟩
  | seImm x kk => exact ⟨_, exec_seImm x kk s, .skip (.inr (.inl ⟨x, kk, .inl rfl⟩))⟩
  | sneImm x kk => exact ⟨_, exec_sneImm x kk s, .skip (.inr (.inl ⟨x, kk, .inr rfl⟩))⟩
  | seReg x y => exact ⟨_, exec_seReg x y s, .skip (.inr (.inr (.inl ⟨x, y, .inl rfl⟩)))⟩
  | ldImm x kk => exact ⟨_, exec_ldImm x kk s, .setV fun _ => rfl⟩
  | addImm x kk => exact ⟨_, exec_addImm x kk s, .setV fun _ => rfl⟩
  | ldReg x y => exact ⟨_, exec_ldReg x y s, .setV fun _ => rfl⟩
  | orReg x y => exact ⟨_, exec_orReg x y s, .setV fun _ => rfl⟩
  | andReg x y => exact ⟨_, exec_andReg x y s, .setV fun _ => rfl⟩
  | xorReg x y => exact ⟨_, exec_xorReg x y s, .setV fun _ => rfl⟩
  | addReg x y => exact ⟨_, exec_addReg x y s, .setV_setFlag fun _ => rfl⟩
  | subReg x y => exact ⟨_, exec_subReg x y s, .setV_setFlag fun _ => rfl⟩
  | shr x y => exact ⟨_, exec_shr x y s, .setV_setFlag fun _ => rfl⟩
  | subnReg x y => exact ⟨_, exec_subnReg x y s, .setV_setFlag fun _ => rfl⟩
  | shl x y => exact ⟨_, exec_shl x y s, .setV_setFlag fun _ => rfl⟩
  | sneReg x y => exact ⟨_, exec_sneReg x y s, .skip (.inr (.inr (.inl ⟨x, y, .inr rfl⟩)))⟩
  | ldI nnn => exact ⟨_, exec_ldI nnn s, .wroteI (.inl ⟨nnn, rfl⟩)⟩
  | jpV0 nnn => exact ⟨_, exec_jpV0 nnn s, .wrotePc (.inl ⟨nnn, .inr (.inr rfl)⟩)⟩
  | rnd x kk => exact ⟨_, exec_rnd x kk s, .drawn x kk _⟩
  | drw x y n =>
    rcases Nat.lt_or_ge 0xFFF (s.i.toNat + spriteBytes n s.mode - 1) with hout | hfit
    · exact ⟨_, exec_drw_beyond hout, .raised (.sprite hout)⟩
    · exact ⟨_, exec_drw_fits hfit, .drew x y n _ _⟩
  | skp x =>
    refine exists_effect_of_operand (.inr (.inr (.inl rfl))) fun hkey => ?_
    exact ⟨_, exec_skp_key (k := (s.getV x).setWidth 4) (by rw [BitVec.toNat_setWidth]; omega),
      .skip (.inr (.inr (.inr ⟨x, .inl rfl⟩)))⟩
  | sknp x =>
    refine exists_effect_of_operand (.inr (.inr (.inr rfl))) fun hkey => ?_
    exact ⟨_, exec_sknp_key (k := (s.getV x).setWidth 4) (by rw [BitVec.toNat_setWidth]; omega),
      .skip (.inr (.inr (.inr ⟨x, .inr (.inl rfl)⟩)))⟩
  | ldVxDt x => exact ⟨_, exec_ldVxDt x s, .setV fun _ => rfl⟩
  | ldVxK x =>
    by_cases hdown : s.keyCount = 0
    · exact ⟨_, exec_ldVxK_waits x hdown, .wrotePc (.inr (.inr (.inr ⟨x, .inr (.inr rfl)⟩)))⟩
    · exact ⟨_, exec_ldVxK_delivers x hdown, .setV fun _ => rfl⟩
  | ldDtVx x => exact ⟨_, exec_ldDtVx x s, .wroteDt x⟩
  | ldStVx x => exact ⟨_, exec_ldStVx x s, .wroteSt x⟩
  | addI x => exact ⟨_, exec_addI x s, .addedToI x _ _⟩
  | ldF x =>
    refine exists_effect_of_operand (.inl rfl) fun hdigit => ?_
    exact ⟨_, exec_ldF_digit hdigit, .wroteI (.inr ⟨x, .inl rfl⟩)⟩
  | ldHf x =>
    refine exists_effect_of_operand (.inr (.inl rfl)) fun hdigit => ?_
    exact ⟨_, exec_ldHf_digit hdigit, .wroteI (.inr ⟨x, .inr rfl⟩)⟩
  | ldB x =>
    rcases Nat.lt_or_ge 0xFFF (s.i.toNat + 2) with hout | hfit
    · exact ⟨_, exec_ldB_beyond hout, .raised (.digits hout)⟩
    · exact ⟨_, exec_ldB_fits hfit, .wroteMem _ _ ⟨x, .inl rfl⟩⟩
  | storeV x =>
    rcases Nat.lt_or_ge 0xFFF (s.i.toNat + x.toNat) with hout | hfit
    · exact ⟨_, exec_storeV_beyond hout, .raised (.block (.inl rfl) hout)⟩
    · exact ⟨_, exec_storeV_fits hfit, .wroteMem _ _ ⟨x, .inr rfl⟩⟩
  | loadV x =>
    rcases Nat.lt_or_ge 0xFFF (s.i.toNat + x.toNat) with hout | hfit
    · exact ⟨_, exec_loadV_beyond hout, .raised (.block (.inr rfl) hout)⟩
    · refine ⟨_, exec_loadV_fits hfit, .wroteV fun j hj => ?_⟩
      exact (State.getV_setFirstVs s x j _).trans (if_neg (of_decide_eq_false hj))
  | saveR x => exact ⟨_, exec_saveR x s, .wroteR x⟩
  | restoreR x => exact ⟨_, exec_restoreR x s, .wroteV fun _ hj => nomatch hj⟩

theorem effect_of_exec {i : Instr} {s t : State} (h : exec i s = .next t) : Effect s i t := by
  obtain ⟨t', ht', heffect⟩ := exists_effect i s
  cases h.symm.trans ht'
  exact heffect

/-! ### The writers of each component -/

section
variable {i : Instr} {s t : State}

theorem Effect.keys_kept (h : Effect s i t) :
    t.key = s.key ∧ t.keyCount = s.keyCount ∧ t.lastKey = s.lastKey := by
  cases h with
  | _ => exact ⟨rfl, rfl, rfl⟩

theorem Effect.getV_kept (h : Effect s i t) (j : Nibble) (hj : writesV i j = false) :
    t.getV j = s.getV j := by
  cases h with
  | wroteV hv => exact hv j hj
  | addedToI x a c => exact State.setFlag_keepsOtherVs _ c j (ne_of_beq_false hj)
  | drew x y n f c => exact State.setFlag_keepsOtherVs _ c j (ne_of_beq_false hj)
  | drawn x kk b => exact State.getV_setV_ne _ b (ne_of_beq_false hj)
  | _ => rfl

theorem Effect.pc_kept_or (h : Effect s i t) : t.pc = s.pc ∨ i = .ret ∨ MovesPc i := by
  cases h with
  | wrotePc hi => exact .inr (.inr hi)
  | popped => exact .inr (.inl rfl)
  | pushed nnn => exact .inr (.inr (.inl ⟨nnn, .inr (.inl rfl)⟩))
  | _ => exact .inl rfl

theorem Effect.fault_kept_or (h : Effect s i t) : t.fault = s.fault ∨ ∃ f, Raises s i f := by
  cases h with
  | raised hf => exact .inr ⟨_, hf⟩
  | _ => exact .inl rfl

theorem Effect.i_kept_or (h : Effect s i t) :
    t.i = s.i ∨ (∃ nnn, i = .ldI nnn) ∨ ∃ x, i = .addI x ∨ i = .ldF x ∨ i = .ldHf x := by
  cases h with
  | wroteI hi => exact .inr (hi.imp_right fun ⟨x, hx⟩ => ⟨x, .inr hx⟩)
  | addedToI x => exact .inr (.inr ⟨x, .inl rfl⟩)
  | _ => exact .inl rfl

theorem Effect.r_kept_or (h : Effect s i t) : t.r = s.r ∨ ∃ x, i = .saveR x := by
  cases h with
  | wroteR x => exact .inr ⟨x, rfl⟩
  | _ => exact .inl rfl

theorem Effect.stack_kept_or (h : Effect s i t) : t.stack = s.stack ∨ i = .ret ∨ ∃ nnn, i = .call nnn := by
  cases h with
  | popped => exact .inr (.inl rfl)
  | pushed nnn => exact .inr (.inr ⟨nnn, rfl⟩)
  | _ => exact .inl rfl

theorem Effect.dt_kept_or (h : Effect s i t) : t.dt = s.dt ∨ ∃ x, i = .ldDtVx x := by
  cases h with
  | wroteDt x => exact .inr ⟨x, rfl⟩
  | _ => exact .inl rfl

theorem Effect.st_kept_or (h : Effect s i t) : t.st = s.st ∨ ∃ x, i = .ldStVx x := by
  cases h with
  | wroteSt x => exact .inr ⟨x, rfl⟩
  | _ => exact .inl rfl

theorem Effect.mem_kept_or (h : Effect s i t) : t.mem = s.mem ∨ ∃ x, i = .ldB x ∨ i = .storeV x := by
  cases h with
  | wroteMem a bytes hi => exact .inr hi
  | _ => exact .inl rfl

theorem Effect.mode_kept_or (h : Effect s i t) : t.mode = s.mode ∨ i = .low ∨ i = .high := by
  cases h with
  | switched m hi => exact .inr hi
  | _ => exact .inl rfl

theorem Effect.disp_kept_or (h : Effect s i t) : t.disp = s.disp ∨ i = .cls ∨ i = .scr ∨ i = .scl ∨ i = .low ∨
    i = .high ∨ (∃ n, i = .scd n) ∨ ∃ x y n, i = .drw x y n := by
  cases h with
  | wroteDisp f hi => tauto
  | switched m hi => tauto
  | drew x y n => tauto
  | _ => exact .inl rfl

theorem Effect.draws_kept_or (h : Effect s i t) : t.draws = s.draws ∨ ∃ x kk, i = .rnd x kk := by
  cases h with
  | drawn x kk => exact .inr ⟨x, kk, rfl⟩
  | _ => exact .inl rfl

/-! ### Faults -/

/-- The instructions that can raise a fault. -/
theorem Raises.instr {f : Fault} (h : Raises s i f) : i = .ret ∨
    (∃ x, i = .ldF x ∨ i = .ldHf x ∨ i = .skp x ∨ i = .sknp x) ∨
    (∃ x, i = .ldB x ∨ i = .storeV x ∨ i = .loadV x) ∨ ∃ x y n, i = .drw x y n := by
  cases h with
  | underflow => exact .inl rfl
  | operand hi => exact .inr (.inl ⟨_, hi⟩)
  | @digits x => exact .inr (.inr (.inl ⟨x, .inl rfl⟩))
  | block hi => exact .inr (.inr (.inl ⟨_, .inr hi⟩))
  | @sprite x y n => exact .inr (.inr (.inr ⟨x, y, n, rfl⟩))

/-- A fault that was not there before was raised, and the latch is all that was written. -/
theorem Effect.raised_of_fault {f : Fault} (h : Effect s i t) (hnone : s.fault = none)
    (hfault : t.fault = some f) : Raises s i f ∧ t = { s with fault := some f } := by
  cases h with
  | raised hf => cases hfault; exact ⟨hf, rfl⟩
  | _ => exact nomatch hnone.symm.trans hfault

end

end Sys2Proof.Machine

namespace Sys2Proof

open Sys2Proof.Machine

/-- Settles O17: the list of `Raises`, which the latch of an unfaulted state can only be set by. -/
theorem whichInstructionRaisesWhichFault : Obligations.WhichInstructionRaisesWhichFault := by
  intro i s t f hnone hexec hfault
  obtain ⟨hraises, -⟩ := (effect_of_exec hexec).raised_of_fault hnone hfault
  cases hraises with
  | underflow hempty => exact .inl ⟨rfl, hempty, rfl⟩
  | operand hi hrange => exact .inr (.inl ⟨_, hi, hrange, rfl⟩)
  | digits hout => exact .inr (.inr (.inl ⟨_, rfl, hout, rfl⟩))
  | block hi hout => exact .inr (.inr (.inr (.inl ⟨_, hi, hout, rfl⟩)))
  | sprite hout => exact .inr (.inr (.inr (.inr ⟨_, _, _, rfl, hout, rfl⟩)))

/-- Settles O34: no effect of the instruction touches such a register. -/
theorem unwrittenRegistersKeepTheirValue : Obligations.UnwrittenRegistersKeepTheirValue :=
  fun _ _ _ j hexec hj => (effect_of_exec hexec).getV_kept j hj

/-- Settles O43: Fx75 puts V into R, no other instruction writes R, and Fx85 puts R into V. -/
theorem restoreBringsBackTheSaved : Obligations.RestoreBringsBackTheSaved := by
  intro x y i s t u hi hsave hexec
  rw [exec_saveR] at hsave
  cases hsave
  have hr : u.r = s.v := (effect_of_exec hexec).r_kept_or.resolve_right fun ⟨z, hz⟩ => hi z hz
  rw [exec_restoreR, hr]

/-- Settles O60: the writers of each component, as its list of effects gives them. -/
theorem eachComponentHasItsWriters : Obligations.EachComponentHasItsWriters := by
  intro i s t hexec
  have h := effect_of_exec hexec
  have hlatch := h.fault_kept_or.imp_right fun ⟨_, hf⟩ => hf.instr
  exact ⟨h.keys_kept, h.getV_kept, h.pc_kept_or, hlatch, h.i_kept_or, h.r_kept_or,
    h.stack_kept_or, h.dt_kept_or, h.st_kept_or, h.mem_kept_or, h.mode_kept_or,
    h.disp_kept_or, h.draws_kept_or⟩

end Sys2Proof
end

section
/-! STEP (45_host_operations.md R242, R243) and runs of it: what the fetch finds decides what a STEP
does, a fault leaves the rest of the state alone (60_exceptions.md R266), and two kinds of run. -/

namespace Sys2Proof.Machine

/-! ### A STEP by what the fetch finds -/

theorem State.fetch_eq_wordAtPc {s : State} (hpc : s.pc.toNat ≤ 0xFFE) : s.fetch = .ok s.wordAtPc := by
  rcases s.fetch_cases with ⟨-, hfetch⟩ | ⟨hat, -⟩ | ⟨hbeyond, -⟩
  · exact hfetch
  · omega
  · omega

/-- After a fetch within memory the advance of PC does not wrap. -/
theorem State.toNat_advance_pc {s : State} (hpc : s.pc.toNat ≤ 0xFFE) :
    s.advance.pc.toNat = s.pc.toNat + 2 := by
  have htwo : (2 : Word).toNat = 2 := rfl
  rw [State.advance_pc, BitVec.toNat_add, htwo]
  omega

theorem step_of_fault {s : State} {f : Fault} (h : s.fault = some f) : step s = .fault f := by
  rw [step, h]

theorem step_of_unfaulted {s : State} (h : s.fault = none) :
    step s = orRaise s.fetch s fun ins => runFetched ins s.advance := by
  rw [step, h]

theorem step_eq_runFetched {s : State} (hnone : s.fault = none) (hpc : s.pc.toNat ≤ 0xFFE) :
    step s = runFetched s.wordAtPc s.advance := by
  rw [step_of_unfaulted hnone, State.fetch_eq_wordAtPc hpc, orRaise_ok]

theorem runFetched_of_ok {w : Word} {i : Instr} (h : decodeWord w = .ok i) (s : State) :
    runFetched w s = exec i s := by
  rw [runFetched, h]

theorem runFetched_of_error {w : Word} {e : DecodeError} (h : decodeWord w = .error e) (s : State) :
    runFetched w s = raise (.decodeError w) s := by
  rw [runFetched, h]

theorem step_of_decode {s : State} {i : Instr} (hnone : s.fault = none) (hpc : s.pc.toNat ≤ 0xFFE)
    (hdec : decodeWord s.wordAtPc = .ok i) : step s = exec i s.advance := by
  rw [step_eq_runFetched hnone hpc, runFetched_of_ok hdec]

/-! ### A STEP answers unless the latch is set -/

theorem runFetched_answers (w : Word) (s : State) : ∃ t, runFetched w s = .next t := by
  cases hdec : decodeWord w with
  | ok i =>
    obtain ⟨t, hexec, -⟩ := exists_effect i s
    exact ⟨t, (runFetched_of_ok hdec s).trans hexec⟩
  | error e => exact ⟨_, runFetched_of_error hdec s⟩

theorem step_answers {s : State} (hnone : s.fault = none) : ∃ t, step s = .next t := by
  rw [step_of_unfaulted hnone]
  cases s.fetch with
  | ok w => exact runFetched_answers w s.advance
  | error f => exact ⟨_, rfl⟩

/-! ### Runs -/

/-- A state that steps to itself is all that a run from it ever reaches. -/
theorem run_of_step_self {s : State} (h : step s = .next s) (k : Nat) :
    Sys2Proof.core.run k s = .next s := by
  induction k with
  | zero => rfl
  | succ k ih => rw [run_next h, ih]

/-- The word of two zero bytes is a SYS, so a STEP on it only advances PC. -/
theorem step_on_zeros {s : State} (hnone : s.fault = none) (hpc : s.pc.toNat ≤ 0xFFE)
    (hhi : s.mem.read s.pc.toNat = 0) (hlo : s.mem.read (s.pc.toNat + 1) = 0) :
    step s = .next s.advance := by
  have hword : s.wordAtPc = 0 := by rw [State.wordAtPc, hhi, hlo]; rfl
  have hdec : decodeWord s.wordAtPc = .ok (.sys 0) := by rw [hword]; rfl
  rw [step_of_decode hnone hpc hdec, exec_sys]

end Sys2Proof.Machine

namespace Sys2Proof

open Sys2Proof.Machine

/-- Settles O11: the fetch reads the word at PC, which decodes. -/
theorem stepRunsTheDecodedInstruction : Obligations.StepRunsTheDecodedInstruction :=
  fun _ _ hnone hpc hdec => step_of_decode hnone hpc hdec

/-- Settles O12: the fetch reads the word at PC, whose decode error is raised after the advance. -/
theorem unrecognisedWordRaisesDecodeError : Obligations.UnrecognisedWordRaisesDecodeError :=
  fun s _ hnone hpc hdec => (step_eq_runFetched hnone hpc).trans (runFetched_of_error hdec s.advance)

/-- Settles O13: beyond memory the fetch fails, before the advance. -/
theorem fetchBeyondMemoryRaisesOutOfBounds : Obligations.FetchBeyondMemoryRaisesOutOfBounds := by
  intro s hnone
  rw [step_of_unfaulted hnone]
  rcases s.fetch_cases with ⟨hin, -⟩ | ⟨hat, hfetch⟩ | ⟨hbeyond, hfetch⟩
  · exact ⟨fun _ => by omega, fun _ => by omega⟩
  · exact ⟨fun _ => by rw [hfetch]; rfl, fun _ => by omega⟩
  · exact ⟨fun _ => by omega, fun _ => by rw [hfetch]; rfl⟩

/-- Settles O14: STEP reports the latch before it fetches anything. -/
theorem faultedMachineStaysHalted : Obligations.FaultedMachineStaysHalted := by
  intro s f hfault
  refine ⟨step_of_fault hfault, fun m hm hload => ?_⟩
  subst hm
  show m.applyStep = _
  rw [Session.applyStep, hload, step_of_fault hfault]
  rfl

/-- Settles O15: every instruction has an effect, and the fetch and decode only raise. -/
theorem everyInstructionAnswers : Obligations.EveryInstructionAnswers :=
  ⟨fun i s => (exists_effect i s).imp fun _ h => h.1, fun _ => step_answers⟩

/-- Settles O16: a STEP faults by its instruction, whose effect is then the latch alone, by its decode,
or by its fetch, which leaves PC. -/
theorem faultsArePrecise : Obligations.FaultsArePrecise := by
  intro s t f hnone hstep hfault
  rcases (step_cases hstep).2 with ⟨hpc, i, -, hexec⟩ | ⟨hpc, -, rfl⟩ | ⟨hpc, a, -, rfl⟩
  · exact .inl ⟨hpc, ((effect_of_exec hexec).raised_of_fault hnone hfault).2⟩
  · cases hfault
    exact .inl ⟨hpc, rfl⟩
  · cases hfault
    exact .inr ⟨hpc, rfl⟩

/-- Settles O26: each of the two instructions takes back the advance of PC, so a STEP changes nothing. -/
theorem spinsChangeNothing : Obligations.SpinsChangeNothing := by
  intro s nnn x hnone hpc
  refine ⟨fun htarget hdec => run_of_step_self ?jump, fun hup hdec => run_of_step_self ?wait⟩
  case jump =>
    have hself : zext12 nnn = s.pc := BitVec.eq_of_toNat_eq ((toNat_zext12 nnn).trans htarget.symm)
    rw [step_of_decode hnone hpc hdec, exec_jp, hself]
    rfl
  case wait =>
    rw [step_of_decode hnone hpc hdec, exec_ldVxK_waits (s := s.advance) x hup,
      State.advance_pc, BitVec.add_sub_cancel]
    rfl

/-- Settles O27: by induction on the number of STEPs, each of which advances PC over two zero bytes. -/
theorem zeroedMemoryIsSlidThrough : Obligations.ZeroedMemoryIsSlidThrough := by
  intro k
  induction k with
  | zero =>
    intro s _ _ _
    show Host.Outcome.next s = .next { s with pc := s.pc + 0#16 }
    rw [BitVec.add_zero]
  | succ k ih =>
    intro s hnone hend hzero
    have hpc := State.toNat_advance_pc (s := s) (by omega)
    have hstep : step s = .next s.advance :=
      step_on_zeros hnone (by omega) (hzero _ (by omega) (by omega)) (hzero _ (by omega) (by omega))
    have hrest := ih s.advance hnone (by omega) fun a _ _ => hzero a (by omega) (by omega)
    have htarget : s.advance.pc + BitVec.ofNat 16 (2 * k) = s.pc + BitVec.ofNat 16 (2 * (k + 1)) := by
      rw [State.advance_pc, BitVec.add_assoc, Nat.mul_succ, Nat.add_comm (2 * k), BitVec.ofNat_add]
      rfl
    rw [run_next hstep, hrest, htarget]
    rfl

/-- Settles O41: the store leaves Va and Vb where the next fetch reads its two bytes. -/
theorem storedWordRunsNext : Obligations.StoredWordRunsNext := by
  intro x a b s t hnone hwf hi hb hab hpc hexec
  obtain ⟨t', ht', hframe, hread, -⟩ := (blockStoreWritesV0ToVx x s).1 hwf hi
  cases hexec.symm.trans ht'
  have hpct : t.pc.toNat = s.i.toNat + a.toNat := by rw [hframe]; exact hpc
  have hword : t.wordAtPc = wordOfBytes (s.getV a) (s.getV b) := by
    rw [State.wordAtPc, hpct, Nat.add_assoc, ← hab, hread a (by omega), hread b hb]
  rw [step_eq_runFetched (by rw [hframe]; exact hnone) (by omega), hword]
  rfl

end Sys2Proof
end

section
/-! The environment's operations on the machine and on sessions of it (45_host_operations.md R240 to
R251): RESET, LOAD, PRESS and RELEASE, and what a session refuses. -/

namespace Sys2Proof.Machine

/-! ### The reset contents of the registers, keys and buffer (10_state.md R39) -/

theorem State.reset_getV (x : Nibble) : State.reset.getV x = 0 := by
  simp [State.getV, State.reset]

theorem State.reset_keyDown (k : Nibble) : State.reset.keyDown k = false := by
  simp [State.keyDown, State.reset]

theorem State.reset_r (k : Fin 16) : State.reset.r[k] = 0 := by
  simp [State.reset, Param.rInit]

/-! ### PRESS and RELEASE (R245, R246) -/

theorem State.keyDown_press (s : State) (k j : Nibble) :
    (s.press k).keyDown j = (j == k || s.keyDown j) := by
  by_cases hj : j = k
  · subst hj
    simp [State.keyDown, State.press]
  · have hne : k.toNat ≠ j.toNat := fun h => hj (BitVec.eq_of_toNat_eq h.symm)
    simp [State.keyDown, State.press, hj, hne]

theorem State.keyDown_release (s : State) (k j : Nibble) :
    (s.release k).keyDown j = (j != k && s.keyDown j) := by
  by_cases hj : j = k
  · subst hj
    simp [State.keyDown, State.release]
  · have hne : k.toNat ≠ j.toNat := fun h => hj (BitVec.eq_of_toNat_eq h.symm)
    simp [State.keyDown, State.release, hj, hne]

/-- A second PRESS finds the key down, so it counts nothing and sets what is set. -/
theorem State.press_press (s : State) (k : Nibble) : (s.press k).press k = s.press k := by
  have hdown : (s.press k).keyDown k = true := by rw [State.keyDown_press, beq_self_eq_true, Bool.true_or]
  rw [State.press, hdown]
  simp [State.press]

theorem State.release_release (s : State) (k : Nibble) : (s.release k).release k = s.release k := by
  have hup : (s.release k).keyDown k = false := by
    rw [State.keyDown_release, bne_self_eq_false, Bool.false_and]
  rw [State.release, hup]
  simp [State.release]

/-! ### The memory right after RESET -/

theorem ResetConfig.memory_wf (c : ResetConfig) : c.memory.wf :=
  Memory.wf_writeBytes _ _ (Memory.wf_writeBytes _ _ (Memory.wf_writeBytes _ _ Memory.wf_nil))

/-- What each address reads as right after RESET, by region (10_state.md R36, R39). -/
theorem ResetConfig.read_memory {c : ResetConfig} (hsmall : c.fontSmall.length = 80)
    (hlarge : c.fontLarge.length = 160) (hinit : c.memInit.length ≤ 3856) (a : Nat) :
    c.memory.read a =
      if a < 0x050 then c.fontSmall.getD a 0
      else if a < 0x0F0 then c.fontLarge.getD (a - 0x050) 0
      else c.memInit.getD (a - 0x0F0) 0 := by
  have hmemory : c.memory = Memory.writeBytes (Memory.writeBytes (Memory.writeBytes [] 0x000 c.fontSmall)
      0x050 c.fontLarge) 0x0F0 c.memInit := by
    rw [ResetConfig.memory, List.take_of_length_le hsmall.le, List.take_of_length_le hlarge.le]
    rfl
  have hwf := Memory.wf_writeBytes 0x000 c.fontSmall Memory.wf_nil
  rw [hmemory, Memory.read_writeBytes _ _ _ (by rw [Config.memSize]; omega) (Memory.wf_writeBytes _ _ hwf),
    Memory.read_writeBytes _ _ _ (by rw [Config.memSize]; omega) hwf,
    Memory.read_writeBytes _ _ _ (by rw [Config.memSize]; omega) Memory.wf_nil, hsmall, hlarge]
  rcases Nat.lt_or_ge a 0x0F0 with hfont | hrest
  · rw [if_neg (by omega)]
    rcases Nat.lt_or_ge a 0x050 with hlow | hhigh
    · rw [if_neg (by omega), if_pos (by omega), if_pos hlow, Nat.sub_zero]
    · rw [if_pos (by omega), if_neg (by omega), if_pos hfont]
  · rw [if_neg (by omega : ¬ a < 0x050), if_neg (by omega : ¬ a < 0x0F0)]
    split
    case isTrue => rfl
    case isFalse hpast =>
      rw [if_neg (by omega), if_neg (by omega), List.getD_eq_default _ _ (by omega)]
      exact Memory.unlisted_rest hrest

/-- Under the default configuration every address reads as unlisted, and a canonical memory lists
nothing else. -/
theorem ResetConfig.memory_default : ResetConfig.default.memory = [] := by
  refine Memory.eq_of_read (ResetConfig.memory_wf _) Memory.wf_nil fun a => ?_
  rw [ResetConfig.read_memory rfl (by simp [ResetConfig.default]) (by simp [ResetConfig.default])]
  show _ = Memory.unlisted a
  split
  case isTrue hsmall => exact (Memory.unlisted_small hsmall).symm
  case isFalse hsmall =>
    split
    case isTrue hlarge =>
      obtain ⟨j, rfl⟩ := Nat.exists_eq_add_of_le (Nat.le_of_not_lt hsmall)
      have hj : j < 160 := by omega
      rw [Nat.add_sub_cancel_left, Memory.unlisted_large hj]
      simp [ResetConfig.default, List.getD, hj]
    case isFalse hrest => exact (Memory.unlisted_rest (Nat.le_of_not_lt hrest)).symm

/-! ### What the operations of a session do -/

theorem Session.applyKey_cases {f : State → Nibble → State} {k : Nat} {m m' : Session} {r : Response}
    (h : m.applyKey f k = .ok (m', r)) : ∃ j, m'.machine = f m.machine j := by
  unfold Session.applyKey at h
  split at h
  · cases h; exact ⟨_, rfl⟩
  · cases h

theorem Session.applyLoad_cases {bytes : List Byte} {m m' : Session} {r : Response}
    (h : m.applyLoad bytes = .ok (m', r)) :
    (m.machine.loadRom bytes = some m'.machine ∧ m'.loaded = true ∧ m'.started = false) ∨
      (m'.machine = m.machine ∧ r = .romLoadError) := by
  unfold Session.applyLoad at h
  split at h
  · cases h
  next hstarted =>
  split at h
  · cases h
  split at h
  next hload => cases h; exact .inl ⟨hload, rfl, Bool.eq_false_of_not_eq_true hstarted⟩
  next => cases h; exact .inr ⟨rfl, rfl⟩

theorem Session.applyStep_cases {m m' : Session} {r : Response} (h : m.applyStep = .ok (m', r)) :
    m'.started = true ∧ (step m.machine = .next m'.machine ∨ m'.machine = m.machine) := by
  unfold Session.applyStep at h
  split at h
  · cases h
  split at h
  next hstep => cases h; exact ⟨rfl, .inl hstep⟩
  next => cases h; exact ⟨rfl, .inr rfl⟩
  next => cases h

theorem Session.applyLoad_large {bytes : List Byte} {m : Session} (hstarted : m.started = false)
    (hloaded : m.loaded = false) (h : 3584 < bytes.length) :
    m.applyLoad bytes = .ok ({ m with loadFailed := true }, .romLoadError) := by
  rw [Session.applyLoad, hstarted, hloaded, State.loadRom_large _ h]
  rfl

theorem Session.applyKey_range {f : State → Nibble → State} {k : Nat} {m : Session} (h : 15 < k) :
    m.applyKey f k = .error (.keyIndexOutOfRange k) := if_neg (Nat.not_le.2 h)

end Sys2Proof.Machine

namespace Sys2Proof

open Sys2Proof.Machine

/-- Settles O1: each component as `State.reset` gives it, each byte as its region of memory does. -/
theorem resetStateValues : Obligations.ResetStateValues :=
  ⟨rfl, State.reset_getV, rfl, rfl, rfl, rfl, State.reset_r, rfl,
    fun x y => by rw [State.reset_disp, Display.get_clear], State.reset_keyDown, rfl, rfl,
    fun _ => Memory.unlisted_small, fun _ => Memory.unlisted_large, fun _ h _ => Memory.unlisted_rest h⟩

/-- Settles O55: PRESS and RELEASE set one cell of the key state, and count it if it changed. -/
theorem pressAndRelease : Obligations.PressAndRelease := fun s k j =>
  ⟨s.keyDown_press k j, rfl, rfl, s.press_press k, s.press_eq k, s.keyDown_release k j, rfl, rfl,
    s.release_release k, s.release_eq k⟩

/-- Settles O57: a ROM that fits is a run of bytes from 0x200. -/
theorem loadPlacesTheRom : Obligations.LoadPlacesTheRom := by
  intro s bytes hwf
  refine ⟨fun hfit => ?_, State.loadRom_large s⟩
  exact ⟨_, State.loadRom_fits s hfit, rfl, fun k hk => Memory.read_writeBytes_at hwf (by omega) hk,
    sameMemoryOutside_writeBytes hwf rfl (by omega)⟩

/-- Settles O58: with the default configuration memory lists nothing, with any other it reads as the
configuration says, region by region. -/
theorem resetOperation : Obligations.ResetOperation := by
  refine ⟨fun s => ?default, fun s c hsmall hlarge hinit => ?configured⟩
  case default =>
    rw [State.resetWith, ResetConfig.memory_default]
    rfl
  case configured =>
    have hread : ∀ a, (s.resetWith c).mem.read a = _ := ResetConfig.read_memory hsmall hlarge hinit
    refine ⟨rfl, fun k hk => ?small, fun k hk => ?large, fun k hk => ?init, fun a ha _ => ?zero⟩
    case small => rw [hread, if_pos hk]
    case large => rw [hread, if_neg (by omega), if_pos (by omega), Nat.add_sub_cancel_left]
    case init => rw [hread, if_neg (by omega), if_neg (by omega), Nat.add_sub_cancel_left]
    case zero => rw [hread, if_neg (by omega), if_neg (by omega), List.getD_eq_default _ _ (by omega)]

/-- Settles O59: each refusal by the bit of the session that the operation before it has set. -/
theorem environmentDutiesAreEnforced : Obligations.EnvironmentDutiesAreEnforced := by
  intro m k bytes
  refine ⟨fun hk => ⟨Session.applyKey_range hk, Session.applyKey_range hk⟩,
    fun m' r hstep => ?afterStep, fun m' more hload => ?secondLoad, fun hstarted hloaded hlarge => ?afterError⟩
  case afterStep =>
    obtain ⟨hstarted, -⟩ := Session.applyStep_cases hstep
    exact if_pos hstarted
  case secondLoad =>
    rcases Session.applyLoad_cases hload with ⟨-, hloaded, hstarted⟩ | ⟨-, herror⟩
    · show m'.applyLoad more = _
      rw [Session.applyLoad, hstarted, hloaded]
      rfl
    · cases herror
  case afterError => exact ⟨_, Session.applyLoad_large hstarted hloaded hlarge, rfl, rfl⟩

end Sys2Proof
end

section
/-! The invariant of the machine: it holds after RESET, and every operation of the interface keeps it
(45_host_operations.md R248). -/

namespace Sys2Proof.Machine

/-! ### Instructions and STEP -/

theorem State.faultGenuine_of_none {s : State} (h : s.fault = none) : s.faultGenuine := by
  intro f hf
  rw [h] at hf
  cases hf

theorem Raises.faultGenuine {s : State} {i : Instr} {f : Fault} (h : Raises s i f) :
    ({ s with fault := some f } : State).faultGenuine := by
  rintro _ ⟨⟩
  cases h with
  | underflow hempty => exact List.isEmpty_iff.2 hempty
  | operand hi hrange => exact decide_eq_true hrange
  | digits hout => exact decide_eq_true hout
  | block hi hout => exact decide_eq_true hout
  | sprite hout => exact decide_eq_true hout

/-- An instruction keeps the invariant, from a PC that has been advanced past its own word. -/
theorem Effect.inv {i : Instr} {s t : State} (h : Effect s i t) (hinv : s.Inv) (hnone : s.fault = none)
    (hpc : 2 ≤ s.pc.toNat ∧ s.pc.toNat ≤ Config.memSize) : t.Inv := by
  obtain ⟨hmem, hdisp, hkeys, hstack, -⟩ := hinv
  have hlatch : ∀ {u : State}, u.fault = none → u.faultGenuine := State.faultGenuine_of_none
  cases h with
  | raised hf => exact ⟨hmem, hdisp, hkeys, hstack, hf.faultGenuine⟩
  | popped hl =>
    refine ⟨hmem, hdisp, hkeys, fun a ha => hstack a ?_, hlatch hnone⟩
    exact hl ▸ List.mem_append_left _ ha
  | pushed nnn =>
    refine ⟨hmem, hdisp, hkeys, fun a ha => ?_, hlatch hnone⟩
    rcases List.mem_append.1 ha with hold | hnew
    · exact hstack a hold
    · exact List.mem_singleton.1 hnew ▸ hpc
  | wroteMem a bytes => exact ⟨Memory.wf_writeBytes a bytes hmem, hdisp, hkeys, hstack, hlatch hnone⟩
  | wroteDisp f => exact ⟨hmem, Display.ofFn_fits s.mode f, hkeys, hstack, hlatch hnone⟩
  | switched m => exact ⟨hmem, Display.clear_fits m, hkeys, hstack, hlatch hnone⟩
  | drew x y n f c => exact ⟨hmem, Display.ofFn_fits s.mode f, hkeys, hstack, hlatch hnone⟩
  | _ => exact ⟨hmem, hdisp, hkeys, hstack, hlatch hnone⟩

theorem State.Inv.advance {s : State} (h : s.Inv) : s.advance.Inv :=
  ⟨h.memory, h.display, h.keys, h.stack, h.latch⟩

theorem State.Inv.step {s t : State} (h : s.Inv) (hstep : step s = .next t) : t.Inv := by
  obtain ⟨hnone, ⟨hpc, i, -, hexec⟩ | ⟨-, ⟨e, hdec⟩, rfl⟩ | ⟨-, a, ha, rfl⟩⟩ := step_cases hstep
  · have hadvance := State.toNat_advance_pc hpc
    exact (effect_of_exec hexec).inv h.advance hnone (by rw [hadvance, Config.memSize]; omega)
  · refine ⟨h.memory, h.display, h.keys, h.stack, ?_⟩
    rintro _ ⟨⟩
    rw [Fault.genuine, hdec]
    rfl
  · refine ⟨h.memory, h.display, h.keys, h.stack, ?_⟩
    rintro _ ⟨⟩
    exact decide_eq_true ha

/-! ### The other operations -/

theorem State.reset_inv : State.reset.Inv where
  memory := Memory.wf_nil
  display := by rw [State.reset_disp]; exact Display.clear_fits .legacy
  keys := by decide
  stack := fun _ ha => nomatch ha
  latch := State.faultGenuine_of_none rfl

theorem State.resetWith_inv (s : State) (c : ResetConfig) : (s.resetWith c).Inv :=
  ⟨c.memory_wf, State.reset_inv.display, State.reset_inv.keys, State.reset_inv.stack,
    State.reset_inv.latch⟩

theorem State.Inv.tick {s : State} (h : s.Inv) : s.tick.Inv :=
  ⟨h.memory, h.display, h.keys, h.stack, h.latch⟩

theorem State.Inv.press {s : State} (h : s.Inv) (k : Nibble) : (s.press k).Inv :=
  ⟨h.memory, h.display, State.keysCounted_press h.keys k, h.stack, h.latch⟩

theorem State.Inv.release {s : State} (h : s.Inv) (k : Nibble) : (s.release k).Inv :=
  ⟨h.memory, h.display, State.keysCounted_release h.keys k, h.stack, h.latch⟩

theorem State.Inv.loadRom {s t : State} {bytes : List Byte} (h : s.Inv)
    (hload : s.loadRom bytes = some t) : t.Inv := by
  unfold State.loadRom at hload
  split at hload
  · cases hload
    exact ⟨Memory.wf_writeBytes _ _ h.memory, h.display, h.keys, h.stack, h.latch⟩
  · cases hload

/-! ### Sessions -/

theorem Session.apply_inv {o : Op} {m m' : Session} {r : Response} (h : m.machine.Inv)
    (happly : m.apply o = .ok (m', r)) : m'.machine.Inv := by
  cases o with
  | reset c => cases happly; exact m.machine.resetWith_inv c
  | load bytes =>
    rcases Session.applyLoad_cases happly with ⟨hload, -⟩ | ⟨hsame, -⟩
    · exact h.loadRom hload
    · rwa [hsame]
  | step =>
    rcases (Session.applyStep_cases happly).2 with hstep | hsame
    · exact h.step hstep
    · rwa [hsame]
  | tick => cases happly; exact h.tick
  | press k =>
    obtain ⟨j, hj⟩ := Session.applyKey_cases happly
    rw [hj]
    exact h.press j
  | release k =>
    obtain ⟨j, hj⟩ := Session.applyKey_cases happly
    rw [hj]
    exact h.release j
  | getDisplay => cases happly; exact h

theorem Session.run_inv {ops : List Op} {m m' : Session} (h : m.machine.Inv)
    (hrun : Session.run ops m = .ok m') : m'.machine.Inv := by
  induction ops generalizing m with
  | nil => cases hrun; exact h
  | cons o os ih =>
    unfold Session.run at hrun
    split at hrun
    next happly => exact ih (Session.apply_inv h happly) hrun
    next => cases hrun

end Sys2Proof.Machine

namespace Sys2Proof

open Sys2Proof.Machine

/-- Settles O2: RESET lists no memory, clears the buffer, lifts every key and empties the stack. -/
theorem resetMeetsInvariant : Obligations.ResetMeetsInvariant := State.reset_inv

/-- Settles O3: by what a STEP can do, and for an instruction by its effect. -/
theorem stepKeepsInvariant : Obligations.StepKeepsInvariant := fun _ _ hinv hstep => hinv.step hstep

/-- Settles O4: by induction on the operations, each of which keeps the invariant. -/
theorem everyInterleavingKeepsInvariant : Obligations.EveryInterleavingKeepsInvariant :=
  fun _ _ _ hinv hrun => Session.run_inv hinv hrun

end Sys2Proof
end
